-- ==== Sys2Proof/Word.lean ====
section
/-!
DEFINITION. The widths of the machine (spec/00_scope.md R6): 8-bit bytes, 16-bit words, 12-bit addresses, 4-bit
nibbles, and the sixteen register indices. Bit 0 is the least significant bit (R8).
-/

namespace Sys2Proof

/-- An 8-bit value: a general register, a byte of memory, the immediate `nn`, the random byte (R6, R10). -/
abbrev Byte := BitVec 8

/-- A 16-bit value: an instruction word, `pc`, `I`, a slot of the return stack (R6, R13, R16, R17). -/
abbrev Word := BitVec 16

/-- A 4-bit field of the instruction word (R51). -/
abbrev Nibble := BitVec 4

/-- The 12-bit address immediate `nnn` (R52). -/
abbrev Addr12 := BitVec 12

/-- A register index, 0 to 15 (R10). -/
abbrev Reg := Fin 16

end Sys2Proof
end

