-- ==== Sys2Proof/Config.lean ====
section
/-!
DEFINITION. What is fixed for one machine: the memory's constants of spec/00_scope.md R6 (the sizes of the register file,
the stack and the display stand in the types of Machine/State.lean), the decoder parameter of R59, and the two values the spec leaves OPEN (D11 the glyph bytes, D12 the random byte), which are opaque constants with no
body, so that no proof can learn one of them.
-/

namespace Sys2Proof.Config

/-- `MEM_SIZE` (R6, R20): addresses 0 to 4095. -/
def memSize : Nat := 4096

/-- `PROGRAM_BASE` (R6, R13): where the image is placed and where `pc` starts. -/
def programBase : Nat := 200

/-- `MAX_PROGRAM_LEN` (R6, R161). -/
def maxProgramLen : Nat := 3896

/-- The glyph table fills the addresses below this one (R6, R38). -/
def glyphEnd : Nat := 80

/-- The parameter `SHIFT_Y_ANY` of R59 (D5): with `false`, the spec's default, the shifts need `y = 0`. -/
def shiftYAny : Bool := false

/-- FREE VALUE (R7, R163, D11 OPEN): the byte `GLYPH_TABLE[a]` of the fixed glyph table, for `a < 80`. The spec gives
not one of the 80 bytes. See notes/assumptions/1.md. -/
opaque glyphByte : Nat → Byte

/-- FREE VALUE (R24, R134, D12 OPEN): the random byte of the `n`-th draw since reset for which the environment has put
nothing on the random port. See notes/assumptions/2.md. -/
opaque randomByte : Nat → Byte

end Sys2Proof.Config
end

