-- ==== Sys2Proof/Syntax.lean ====
section
/-!
DEFINITION. The 27 instructions (spec/30_encoding.md R56), one constructor for each row of spec/opcode_table.json in the
table's order, and the names of the rows. The operands carry their widths in their types (R52), so no instruction with
an operand out of range can be written down.
-/

namespace Sys2Proof

/-- The chip_8 core ISA (R56). A register operand is a `Reg`, `nn` a byte, `nnn` a 12-bit address and `d` the row
count of `DRAW`, 0 to 15. -/
inductive Instr where
  /-- `HALT`, 0x0000 (R71). -/
  | halt
  /-- `RET`, 0x00EE (R74). -/
  | ret
  /-- `JUMP nnn`, 0x1NNN (R72). -/
  | jump (nnn : Addr12)
  /-- `CALL nnn`, 0x2NNN (R73). -/
  | call (nnn : Addr12)
  /-- `SKEQI rX, nn`, 0x3XNN (R81). -/
  | skeqi (x : Reg) (nn : Byte)
  /-- `SKNEI rX, nn`, 0x4XNN (R82). -/
  | sknei (x : Reg) (nn : Byte)
  /-- `SKEQ rX, rY`, 0x5XY0 (R83). -/
  | skeq (x y : Reg)
  /-- `LDI rX, nn`, 0x6XNN (R92). -/
  | ldi (x : Reg) (nn : Byte)
  /-- `ADDI rX, nn`, 0x7XNN (R93). -/
  | addi (x : Reg) (nn : Byte)
  /-- `MOV rX, rY`, 0x8XY0 (R94). -/
  | mov (x y : Reg)
  /-- `OR rX, rY`, 0x8XY1 (R95). -/
  | or (x y : Reg)
  /-- `AND rX, rY`, 0x8XY2 (R96). -/
  | and (x y : Reg)
  /-- `XOR rX, rY`, 0x8XY3 (R97). -/
  | xor (x y : Reg)
  /-- `ADD rX, rY`, 0x8XY4 (R98). -/
  | add (x y : Reg)
  /-- `SUB rX, rY`, 0x8XY5 (R99). -/
  | sub (x y : Reg)
  /-- `SHR rX`, 0x8X06 (R101). -/
  | shr (x : Reg)
  /-- `SUBR rX, rY`, 0x8XY7 (R100). -/
  | subr (x y : Reg)
  /-- `SHL rX`, 0x8X0E (R102). -/
  | shl (x : Reg)
  /-- `SKNE rX, rY`, 0x9XY0 (R84). -/
  | skne (x y : Reg)
  /-- `SETI nnn`, 0xANNN (R111). -/
  | seti (nnn : Addr12)
  /-- `JUMPV0 nnn`, 0xBNNN (R75). -/
  | jumpv0 (nnn : Addr12)
  /-- `RAND rX, nn`, 0xCXNN (R103). The field `x` is part of the word and has no effect (R60). -/
  | rand (x : Reg) (nn : Byte)
  /-- `DRAW rX, rY, d`, 0xDXYD (R123). -/
  | draw (x y : Reg) (d : Fin 16)
  /-- `ADDA rX`, 0xFX1E (R112). -/
  | adda (x : Reg)
  /-- `BCD rX`, 0xFX33 (R115). -/
  | bcd (x : Reg)
  /-- `DUMP rX`, 0xFX55 (R113). -/
  | dump (x : Reg)
  /-- `LOAD rX`, 0xFX65 (R114). -/
  | load (x : Reg)
deriving DecidableEq, Repr

/-- The names of the 27 rows of the opcode map (R56), in its order. -/
inductive Mnemonic where
  | HALT | RET | JUMP | CALL | SKEQI | SKNEI | SKEQ | LDI | ADDI | MOV | OR | AND | XOR | ADD | SUB | SHR | SUBR | SHL
  | SKNE | SETI | JUMPV0 | RAND | DRAW | ADDA | BCD | DUMP | LOAD
deriving DecidableEq, Repr

/-- The row of the opcode map an instruction stands for. -/
def Instr.mnemonic : Instr → Mnemonic
  | .halt => .HALT
  | .ret => .RET
  | .jump _ => .JUMP
  | .call _ => .CALL
  | .skeqi _ _ => .SKEQI
  | .sknei _ _ => .SKNEI
  | .skeq _ _ => .SKEQ
  | .ldi _ _ => .LDI
  | .addi _ _ => .ADDI
  | .mov _ _ => .MOV
  | .or _ _ => .OR
  | .and _ _ => .AND
  | .xor _ _ => .XOR
  | .add _ _ => .ADD
  | .sub _ _ => .SUB
  | .shr _ => .SHR
  | .subr _ _ => .SUBR
  | .shl _ => .SHL
  | .skne _ _ => .SKNE
  | .seti _ => .SETI
  | .jumpv0 _ => .JUMPV0
  | .rand _ _ => .RAND
  | .draw _ _ _ => .DRAW
  | .adda _ => .ADDA
  | .bcd _ => .BCD
  | .dump _ => .DUMP
  | .load _ => .LOAD

end Sys2Proof
end

