-- ==== Sys2Proof/Decode.lean ====
section
/-!
DEFINITION. The instruction encoding (spec/30_encoding.md): the fields of a word (R51), the opcode map as a table of
masks and matches (R56), the decoder by leading nibble (R57), total on every word and every list of bytes, and the
encoder written from the same patterns. A word in memory is two bytes, the high byte at the lower address (R31, R50).
-/

namespace Sys2Proof

/-! ### The fields of a word (R51) -/

/-- `c = w[15:12]`, the major opcode. -/
def fieldC (w : Word) : Nibble := w.extractLsb' 12 4

/-- `x = w[11:8]`. -/
def fieldX (w : Word) : Nibble := w.extractLsb' 8 4

/-- `y = w[7:4]`. -/
def fieldY (w : Word) : Nibble := w.extractLsb' 4 4

/-- `d = w[3:0]`. -/
def fieldD (w : Word) : Nibble := w.extractLsb' 0 4

/-- `nnn = w[11:0]`. -/
def fieldNNN (w : Word) : Addr12 := w.extractLsb' 0 12

/-- `nn = w[7:0]`. -/
def fieldNN (w : Word) : Byte := w.extractLsb' 0 8

/-- A nibble as an index 0 to 15: a register, or the row count of `DRAW` (R52). -/
def nibbleIndex (b : Nibble) : Fin 16 := b.toFin

/-- An index 0 to 15 as a nibble. -/
def indexNibble (r : Fin 16) : Nibble := BitVec.ofFin r

/-- The word with the four nibbles `c`, `x`, `y`, `d` (R51). -/
def wordOf (c x y d : Nibble) : Word := c ++ x ++ y ++ d

/-- The word of format N: `c`, then `nnn` (R53). -/
def wordOfN (c : Nibble) (nnn : Addr12) : Word := c ++ nnn

/-- The word of format XN: `c`, `x`, then `nn` (R53). -/
def wordOfXN (c x : Nibble) (nn : Byte) : Word := c ++ x ++ nn

/-! ### The opcode map (R56) -/

/-- One row of the opcode map: a word `w` selects it iff `w & mask = word`. -/
structure OpcodeRow where
  mnemonic : Mnemonic
  word : Word
  mask : Word
deriving DecidableEq, Repr

/-- Whether a word selects a row (spec/INDEX.md, R54). -/
def OpcodeRow.selects (r : OpcodeRow) (w : Word) : Bool := (w &&& r.mask) == r.word

/-- The mask of the two shifts: 0xF0FF, or 0xF00F with `SHIFT_Y_ANY` (R59). -/
def shiftMask : Word := if Config.shiftYAny then 0xF00F#16 else 0xF0FF#16

/-- Rows 1 to 13 of R56. -/
def opcodeTableLow : List OpcodeRow :=
  [ ⟨.HALT, 0x0000#16, 0xFFFF#16⟩,
    ⟨.RET, 0x00EE#16, 0xFFFF#16⟩,
    ⟨.JUMP, 0x1000#16, 0xF000#16⟩,
    ⟨.CALL, 0x2000#16, 0xF000#16⟩,
    ⟨.SKEQI, 0x3000#16, 0xF000#16⟩,
    ⟨.SKNEI, 0x4000#16, 0xF000#16⟩,
    ⟨.SKEQ, 0x5000#16, 0xF00F#16⟩,
    ⟨.LDI, 0x6000#16, 0xF000#16⟩,
    ⟨.ADDI, 0x7000#16, 0xF000#16⟩,
    ⟨.MOV, 0x8000#16, 0xF00F#16⟩,
    ⟨.OR, 0x8001#16, 0xF00F#16⟩,
    ⟨.AND, 0x8002#16, 0xF00F#16⟩,
    ⟨.XOR, 0x8003#16, 0xF00F#16⟩ ]

/-- Rows 14 to 27 of R56. -/
def opcodeTableHigh : List OpcodeRow :=
  [ ⟨.ADD, 0x8004#16, 0xF00F#16⟩,
    ⟨.SUB, 0x8005#16, 0xF00F#16⟩,
    ⟨.SHR, 0x8006#16, shiftMask⟩,
    ⟨.SUBR, 0x8007#16, 0xF00F#16⟩,
    ⟨.SHL, 0x800E#16, shiftMask⟩,
    ⟨.SKNE, 0x9000#16, 0xF00F#16⟩,
    ⟨.SETI, 0xA000#16, 0xF000#16⟩,
    ⟨.JUMPV0, 0xB000#16, 0xF000#16⟩,
    ⟨.RAND, 0xC000#16, 0xF000#16⟩,
    ⟨.DRAW, 0xD000#16, 0xF000#16⟩,
    ⟨.ADDA, 0xF01E#16, 0xF0FF#16⟩,
    ⟨.BCD, 0xF033#16, 0xF0FF#16⟩,
    ⟨.DUMP, 0xF055#16, 0xF0FF#16⟩,
    ⟨.LOAD, 0xF065#16, 0xF0FF#16⟩ ]

/-- The opcode map of R56, its 27 rows in order. The decoder below is written from R57, not from this table; that the
two agree is stated in Certificates/Slice0/Obligations.lean. -/
def opcodeTable : List OpcodeRow := opcodeTableLow ++ opcodeTableHigh

/-! ### The decoder (R54, R57, R58) -/

/-- Why bytes are no instruction: fewer than two of them, or a word that matches no row (R58). -/
inductive Reject where
  | truncated
  | invalidOpcode (w : Word)
deriving DecidableEq, Repr

/-- The words with `c = 8`, by their low nibble (R57); the shifts need `y = 0` (R59). -/
def decode8 (w : Word) : Except Reject Instr :=
  let x := nibbleIndex (fieldX w)
  let y := nibbleIndex (fieldY w)
  match fieldD w with
  | 0x0#4 => .ok (.mov x y)
  | 0x1#4 => .ok (.or x y)
  | 0x2#4 => .ok (.and x y)
  | 0x3#4 => .ok (.xor x y)
  | 0x4#4 => .ok (.add x y)
  | 0x5#4 => .ok (.sub x y)
  | 0x6#4 => if fieldY w == 0x0#4 || Config.shiftYAny then .ok (.shr x) else .error (.invalidOpcode w)
  | 0x7#4 => .ok (.subr x y)
  | 0xE#4 => if fieldY w == 0x0#4 || Config.shiftYAny then .ok (.shl x) else .error (.invalidOpcode w)
  | _ => .error (.invalidOpcode w)

/-- The words with `c = F`, by their low byte (R57). -/
def decodeF (w : Word) : Except Reject Instr :=
  let x := nibbleIndex (fieldX w)
  match fieldNN w with
  | 0x1E#8 => .ok (.adda x)
  | 0x33#8 => .ok (.bcd x)
  | 0x55#8 => .ok (.dump x)
  | 0x65#8 => .ok (.load x)
  | _ => .error (.invalidOpcode w)

/-- The decoder: the instruction of a word, by its leading nibble as R57 lists them, or its rejection (R54, R58). It
sees the word alone (R55). -/
def decodeWord (w : Word) : Except Reject Instr :=
  let x := nibbleIndex (fieldX w)
  let y := nibbleIndex (fieldY w)
  match fieldC w with
  | 0x0#4 =>
    if w = 0x0000#16 then .ok .halt
    else if w = 0x00EE#16 then .ok .ret
    else .error (.invalidOpcode w)
  | 0x1#4 => .ok (.jump (fieldNNN w))
  | 0x2#4 => .ok (.call (fieldNNN w))
  | 0x3#4 => .ok (.skeqi x (fieldNN w))
  | 0x4#4 => .ok (.sknei x (fieldNN w))
  | 0x5#4 => if fieldD w = 0x0#4 then .ok (.skeq x y) else .error (.invalidOpcode w)
  | 0x6#4 => .ok (.ldi x (fieldNN w))
  | 0x7#4 => .ok (.addi x (fieldNN w))
  | 0x8#4 => decode8 w
  | 0x9#4 => if fieldD w = 0x0#4 then .ok (.skne x y) else .error (.invalidOpcode w)
  | 0xA#4 => .ok (.seti (fieldNNN w))
  | 0xB#4 => .ok (.jumpv0 (fieldNNN w))
  | 0xC#4 => .ok (.rand x (fieldNN w))
  | 0xD#4 => .ok (.draw x y (nibbleIndex (fieldD w)))
  | 0xF#4 => decodeF w
  | _ => .error (.invalidOpcode w)

/-- The word of two bytes, the first the more significant (R31). -/
def wordOfBytes (hi lo : Byte) : Word := hi ++ lo

/-- The high byte of a word: the one at the lower address (R31, R50). -/
def highByte (w : Word) : Byte := w.extractLsb' 8 8

/-- The low byte of a word: the one at the higher address (R31, R50). -/
def lowByte (w : Word) : Byte := w.extractLsb' 0 8

/-- The instruction at the head of a list of bytes, and the bytes after it (R50: two bytes, always). -/
def decode : List Byte → Except Reject (Instr × List Byte)
  | hi :: lo :: rest =>
    match decodeWord (wordOfBytes hi lo) with
    | .ok i => .ok (i, rest)
    | .error e => .error e
  | _ => .error .truncated

/-! ### The encoder (R56, R61) -/

/-- The word of an instruction, from the patterns of R56. -/
def encode : Instr → Word
  | .halt => wordOf 0x0#4 0x0#4 0x0#4 0x0#4
  | .ret => wordOf 0x0#4 0x0#4 0xE#4 0xE#4
  | .jump nnn => wordOfN 0x1#4 nnn
  | .call nnn => wordOfN 0x2#4 nnn
  | .skeqi x nn => wordOfXN 0x3#4 (indexNibble x) nn
  | .sknei x nn => wordOfXN 0x4#4 (indexNibble x) nn
  | .skeq x y => wordOf 0x5#4 (indexNibble x) (indexNibble y) 0x0#4
  | .ldi x nn => wordOfXN 0x6#4 (indexNibble x) nn
  | .addi x nn => wordOfXN 0x7#4 (indexNibble x) nn
  | .mov x y => wordOf 0x8#4 (indexNibble x) (indexNibble y) 0x0#4
  | .or x y => wordOf 0x8#4 (indexNibble x) (indexNibble y) 0x1#4
  | .and x y => wordOf 0x8#4 (indexNibble x) (indexNibble y) 0x2#4
  | .xor x y => wordOf 0x8#4 (indexNibble x) (indexNibble y) 0x3#4
  | .add x y => wordOf 0x8#4 (indexNibble x) (indexNibble y) 0x4#4
  | .sub x y => wordOf 0x8#4 (indexNibble x) (indexNibble y) 0x5#4
  | .shr x => wordOf 0x8#4 (indexNibble x) 0x0#4 0x6#4
  | .subr x y => wordOf 0x8#4 (indexNibble x) (indexNibble y) 0x7#4
  | .shl x => wordOf 0x8#4 (indexNibble x) 0x0#4 0xE#4
  | .skne x y => wordOf 0x9#4 (indexNibble x) (indexNibble y) 0x0#4
  | .seti nnn => wordOfN 0xA#4 nnn
  | .jumpv0 nnn => wordOfN 0xB#4 nnn
  | .rand x nn => wordOfXN 0xC#4 (indexNibble x) nn
  | .draw x y d => wordOf 0xD#4 (indexNibble x) (indexNibble y) (indexNibble d)
  | .adda x => wordOf 0xF#4 (indexNibble x) 0x1#4 0xE#4
  | .bcd x => wordOf 0xF#4 (indexNibble x) 0x3#4 0x3#4
  | .dump x => wordOf 0xF#4 (indexNibble x) 0x5#4 0x5#4
  | .load x => wordOf 0xF#4 (indexNibble x) 0x6#4 0x5#4

/-- The two bytes of an instruction as memory holds them, lower address first (R50). -/
def encodeBytes (i : Instr) : List Byte := [highByte (encode i), lowByte (encode i)]

/-! ### The opcode table's numbering -/

/-- The one word of an instruction whose bits are `w`, `nbits` of them given: bit 0 is the least significant bit of the
word, and a bit not given is 0. Every instruction is 16 bits (R50), so bits from 16 up are no part of it. -/
def tableWord (nbits w : Nat) : Word := BitVec.ofNat 16 (w % 2 ^ nbits)

/-- The instruction the decoder reads from the bytes of the table's word `w`, laid out as memory holds them. -/
def decodeTableWord (nbits w : Nat) : Option Instr :=
  match decode [highByte (tableWord nbits w), lowByte (tableWord nbits w)] with
  | .ok (i, _) => some i
  | .error _ => none

end Sys2Proof
end

