-- ==== Sys2Proof/Machine/State.lean ====
section
/-!
DEFINITION. The state of the core (spec/10_state.md section 1, whose list R27 closes), the causes a step can be fatal
for (spec/60_exceptions.md R142), the reasons the model has no step, and the state after reset (R26).
-/

namespace Sys2Proof.Machine

/-- `Mem` (R20) as the bytes that differ from the contents at reset: address and byte, in the canonical form
`Memory.wf` of Ops.lean. `Memory.unlisted` there says what an address not listed reads as. -/
abbrev Memory := List Host.Cell

/-- `disp` (R21, R120): 32 rows from the top, 64 columns from the left, `true` is lit. -/
abbrev Display := Vector (Vector Bool 64) 32

/-- The synchronous exceptions and what each records beside `a0` and the word (R142). -/
inductive FatalCause where
  /-- Cause 1: `CALL` with `sp = 16` (R73). -/
  | stackOverflow
  /-- Cause 2: `RET` with `sp = 0` (R74). -/
  | stackUnderflow
  /-- Cause 3: the word matches no row of the opcode map (R58). -/
  | invalidOpcode
  /-- Cause 4: an access above address 4095, with the lowest such address (R33). -/
  | memoryBounds (addr : Nat)
  /-- Cause 5: a `DRAW` past the edges, with `x[x]`, `x[y]` and `d` (R122). -/
  | displayBounds (column row : Byte) (rows : Fin 16)
deriving DecidableEq, Repr

/-- What a fault records (R142): the address of the instruction, its word when the fetch succeeded, and the cause. -/
structure FaultRecord where
  a0 : Word
  word : Option Word
  cause : FatalCause
deriving DecidableEq, Repr

/-- The latch of R23. `halted` and `faulted` are terminal. -/
inductive Status where
  | running
  | halted
  | faulted (f : FaultRecord)
deriving DecidableEq, Repr

/-- The random port (R24, R134), the MODEL'S OWN field: the bytes the environment has put on the port for the draws to
come, first one first, and the number of draws made since reset. A draw with nothing offered takes the free value
`Config.randomByte` at that number. See notes/assumptions/2.md. -/
structure RandomPort where
  offered : List Byte
  draws : Nat
deriving DecidableEq, Repr

/-- The state (R27). -/
structure State where
  /-- `x[0]` to `x[15]` (R10); `x[15]` doubles as the flag (R12). -/
  regs : Vector Byte 16
  /-- The program counter (R13). Between steps it holds the address of the instruction to execute. -/
  pc : Word
  /-- The address register (R16). -/
  I : Word
  /-- The return stack, not in memory (R17). -/
  stack : Vector Word 16
  /-- The index of the next free slot of the stack, 0 to 16 (R18). -/
  sp : Fin 17
  /-- The memory (R20). -/
  mem : Memory
  /-- The display buffer (R21). -/
  disp : Display
  /-- What the step port has answered (R23). -/
  status : Status
  /-- The random port, the model's own field (R24). -/
  random : RandomPort
deriving DecidableEq, Repr

/-- Why there is no step. The fatal conditions of R142 are NOT here: a step that meets one is a step to a state whose
`status` records it (R146). -/
inductive Fault where
  /-- Raised by `step` when `status` is `Halted`: the core takes no step after a `HALT` (R133, U4 "stuck"). Safe: the
  model stops, and nothing is claimed of execution past a halt. -/
  | stepAfterHalt
  /-- Raised by `step` when `status` is `Faulted`: the core takes no step after a fault (R133, R147). Safe, as above. -/
  | stepAfterFatal (f : FaultRecord)
deriving DecidableEq, Repr

/-- What the model turns away. -/
inductive Refusal where
  /-- Raised by `exec` alone, for an instruction that has no meaning in the model: none is left. Safe. -/
  | notModelled (mnemonic : String)
  /-- Raised by `construct` alone, never by a step: a program image of more than 3896 bytes is not a launch (R161, U3
  "refuse"). Safe. -/
  | imageTooLong (length : Nat)
  /-- Raised by `inspect` alone, never by a step: an inspection index above 15 (R137, U6 "refuse"). Safe. -/
  | inspectionIndex (index : Nat)
deriving DecidableEq, Repr

/-- A display with every pixel unlit (R21). -/
def blankDisplay : Display := Vector.replicate 32 (Vector.replicate 64 false)

/-- The state after reset with no launch input (R26): registers, `I`, stack and `sp` zero, `pc` at 200, memory as
`Memory.unlisted` says, the display clear, running, and nothing yet drawn from the random port. -/
def State.reset : State :=
  { regs := Vector.replicate 16 0#8
    pc := 200#16
    I := 0#16
    stack := Vector.replicate 16 0#16
    sp := 0
    mem := []
    disp := blankDisplay
    status := .running
    random := { offered := [], draws := 0 } }

end Sys2Proof.Machine
end

