-- ==== Sys2Proof/Machine/Ops.lean ====
section
/-!
DEFINITION. The named operations over memory, registers, stack, display and the random port, the taking of a fault, and
the fetch (spec/20_memory.md, spec/10_state.md, spec/60_exceptions.md). Everything an instruction does to the state goes
through these.
-/

namespace Sys2Proof.Machine

/-! ### Memory (R20, R30 to R33) -/

/-- What an address that is not listed reads as: the contents at reset with no image (R20, R38). The glyph table stands
at 0 to 79 and the rest is zero. -/
def Memory.unlisted (a : Nat) : Byte :=
  if a < Config.glyphEnd then Config.glyphByte a else 0#8

/-- The canonical form: addresses inside memory and strictly rising, and no entry that says what its address reads as
anyway. -/
def Memory.wf : Memory → Bool
  | [] => true
  | (a, v) :: rest =>
    decide (a < Config.memSize) && decide (v ≠ Memory.unlisted a) && rest.all (fun c => decide (a < c.1))
      && Memory.wf rest

/-- `Mem[a]` (R30). -/
def Memory.read : Memory → Nat → Byte
  | [], a => Memory.unlisted a
  | (b, u) :: rest, a => if a = b then u else Memory.read rest a

/-- One entry put before a list whose addresses all lie above it; none when the byte is what the address reads as. -/
def Memory.entry (a : Nat) (v : Byte) (rest : Memory) : Memory :=
  if v = Memory.unlisted a then rest else (a, v) :: rest

/-- `Mem[a] <- v` (R32), keeping the canonical form. -/
def Memory.write : Memory → Nat → Byte → Memory
  | [], a, v => Memory.entry a v []
  | (b, u) :: rest, a, v =>
    if a < b then Memory.entry a v ((b, u) :: rest)
    else if a = b then Memory.entry a v rest
    else (b, u) :: Memory.write rest a v

/-- Bytes written to consecutive addresses, ascending from `base` (R36). -/
def Memory.store : Memory → Nat → List Byte → Memory
  | m, _, [] => m
  | m, base, v :: vs => Memory.store (Memory.write m base v) (base + 1) vs

/-- The bounds of R33 for an access to the `n` consecutive bytes from `base`, a mathematical integer that is never
wrapped: the lowest address above 4095, if there is one. An access to no byte has none. -/
def lowestOutside (base n : Nat) : Option Nat :=
  if 1 ≤ n ∧ Config.memSize ≤ base + n - 1 then some (max base Config.memSize) else none

/-- `MemRead(pc, 2)` (R31, R33): the word at `pc`, the byte at the lower address first; or the lowest of its addresses
above 4095. -/
def fetch (s : State) : Except FatalCause Word :=
  match lowestOutside s.pc.toNat 2 with
  | some a => .error (.memoryBounds a)
  | none => .ok (wordOfBytes (s.mem.read s.pc.toNat) (s.mem.read (s.pc.toNat + 1)))

/-! ### Registers (R10) -/

/-- `x[r]`. -/
def State.reg (s : State) (r : Reg) : Byte := s.regs[r]

/-- `x[r] <- v`. No register is hard-wired (R10). -/
def State.setReg (s : State) (r : Reg) (v : Byte) : State := { s with regs := s.regs.set r v }

/-- `x[15]`, the flag register (R12). -/
abbrev flagReg : Reg := 15

/-- `x[0]`, the fixed register of `JUMPV0` (R75) and `RAND` (R103). -/
abbrev reg0 : Reg := 0

/-- `x[0]` to `x[n - 1]`, in order: what `DUMP` stores (R113). -/
def State.firstRegs (s : State) (n : Nat) : List Byte := s.regs.toList.take n

/-- `x[k] <- Mem[base + k]` for `k = 0 .. n - 1`, ascending: the loop of `LOAD` (R114). -/
def loadRegs (m : Memory) (base : Nat) (regs : Vector Byte 16) : Nat → Vector Byte 16
  | 0 => regs
  | n + 1 => (loadRegs m base regs n).setIfInBounds n (m.read (base + n))

/-! ### The program counter (R13) -/

/-- The fetch's advance: `pc <- a0 + 2` (R54). -/
def State.advance (s : State) : State := { s with pc := s.pc + 2#16 }

/-- `pc <- target`; nothing checks the target (R70). -/
def State.jumpTo (s : State) (target : Word) : State := { s with pc := target }

/-! ### The return stack (R17, R18) -/

/-- The slot `k` of the stack. -/
def State.slot (s : State) (k : Fin 16) : Word := s.stack[k]

/-- `stack[sp] <- v; sp <- sp + 1`; none on a full stack (R73). -/
def State.push (s : State) (v : Word) : Option State :=
  if h : s.sp.val < 16 then
    some { s with stack := s.stack.set s.sp.val v h, sp := ⟨s.sp.val + 1, Nat.succ_lt_succ h⟩ }
  else none

/-- `sp <- sp - 1`, and the word in the slot it then names; none on an empty stack. The slot keeps its value (R74). -/
def State.pop (s : State) : Option (Word × State) :=
  if h : s.sp.val = 0 then none
  else
    some (s.stack[s.sp.val - 1]'(by omega),
      { s with sp := ⟨s.sp.val - 1, by omega⟩ })

/-! ### The display (R120) -/

/-- `disp[r][c]`; unlit outside the 32 x 64 pixels, where no instruction looks (R122). -/
def Display.pixel (d : Display) (r c : Nat) : Bool := ((d[r]?).bind (fun row => row[c]?)).getD false

/-- `disp[r][c] <- v`; nothing outside the 32 x 64 pixels, where no instruction writes (R122). -/
def Display.setPixel (d : Display) (r c : Nat) (v : Bool) : Display :=
  match d[r]? with
  | some row => d.setIfInBounds r (row.setIfInBounds c v)
  | none => d

/-! ### The random port (R24, R134) -/

/-- One draw: the first byte offered, or the free value of this draw when none is offered. -/
def RandomPort.draw (p : RandomPort) : Byte × RandomPort :=
  match p.offered with
  | b :: rest => (b, { offered := rest, draws := p.draws + 1 })
  | [] => (Config.randomByte p.draws, { offered := [], draws := p.draws + 1 })

/-! ### Ends of a step -/

/-- `raise` (R8, R145, R146): `status` records the fault, with the address of the instruction (`pc` at the start of the
step) and the word when one was fetched; NOTHING else changes, the advance of `pc` included. Control goes nowhere: there
is no handler, and no return from a fault (R147), so no operation stands beside this one to undo it. -/
def State.raise (s : State) (word : Option Word) (cause : FatalCause) : State :=
  { s with status := .faulted { a0 := s.pc, word := word, cause := cause } }

/-- An instruction's own fault: its word is the encoding of the instruction (R142). -/
def State.fatal (s : State) (i : Instr) (cause : FatalCause) : Host.Outcome State Fault Refusal :=
  .next (s.raise (some (encode i)) cause)

/-- `status <- Halted` (R71). -/
def State.halt (s : State) : State := { s with status := .halted }

/-- The numeric cause code (R142). -/
def FatalCause.code : FatalCause → Nat
  | .stackOverflow => 1
  | .stackUnderflow => 2
  | .invalidOpcode => 3
  | .memoryBounds _ => 4
  | .displayBounds _ _ _ => 5

end Sys2Proof.Machine
end

