-- ==== Sys2Proof/Machine/Operands.lean ====
section
/-!
DEFINITION. Operand forms and results: the effective address, the arithmetic of the ALU family, the digits of `BCD`, the
sprite of `DRAW` (spec/42_alu.md, spec/43_memory_indirection.md R110, spec/44_display.md).
-/

namespace Sys2Proof.Machine

/-- `zext_16` (R8): the same number as a 16-bit value. Used at widths of at most 16 only. -/
def zext16 {n : Nat} (v : BitVec n) : Word := v.setWidth 16

/-- The effective address `EA = I + k`, on the mathematical integers, never wrapped (R110). -/
def State.effAddr (s : State) (k : Nat) : Nat := s.I.toNat + k

/-- The `n` bytes from `I` checked before anything is written: the lowest address outside memory (R33, R110). -/
def State.outsideAtI (s : State) (n : Nat) : Option Nat := lowestOutside (s.effAddr 0) n

/-! ### Results of the ALU family (R90): on the integers, then cut to 8 bits -/

/-- `(a + b) mod 256`. -/
def addResult (a b : Byte) : Byte := BitVec.ofNat 8 (a.toNat + b.toNat)

/-- `(a - b) mod 256`: `a - b` when `a >= b`, else `a - b + 256`. -/
def subResult (a b : Byte) : Byte :=
  if b.toNat ≤ a.toNat then BitVec.ofNat 8 (a.toNat - b.toNat) else BitVec.ofNat 8 (a.toNat + 256 - b.toNat)

/-- `a >> 1`, zero entering bit 7 (R101). -/
def shrResult (a : Byte) : Byte := BitVec.ofNat 8 (a.toNat / 2)

/-- `(a << 1) mod 256` (R102). -/
def shlResult (a : Byte) : Byte := BitVec.ofNat 8 (2 * a.toNat)

/-- `(I + zext_16(v)) mod 65536` (R112). -/
def addaResult (i : Word) (v : Byte) : Word := BitVec.ofNat 16 (i.toNat + v.toNat)

/-- `zext_16(x[0]) + zext_16(nnn)`, at most 0x10FE (R75). -/
def jumpv0Target (v : Byte) (nnn : Addr12) : Word := BitVec.ofNat 16 (v.toNat + nnn.toNat)

/-- The hundreds, tens and ones of a byte, most significant first (R115). -/
def bcdDigits (v : Byte) : List Byte :=
  [BitVec.ofNat 8 (v.toNat / 100), BitVec.ofNat 8 (v.toNat / 10 % 10), BitVec.ofNat 8 (v.toNat % 10)]

/-! ### The sprite of DRAW (R121 to R123) -/

/-- Whether the rectangle of 8 columns and `d` rows leaves the display; one of no rows does not (R122). -/
def rectangleOutside (column row : Byte) (d : Nat) : Bool :=
  decide (1 ≤ d) && (decide (63 < column.toNat + 7) || decide (31 < row.toNat + d - 1))

/-- The pixel of sprite column `b`, 0 leftmost to 7 rightmost, of a sprite row: bit `7 - b` (R121). -/
def spriteBit (row : Byte) (b : Nat) : Bool := row.getLsbD (7 - b)

/-- What `DRAW` carries through its loops: the display, and whether a lit pixel went out (R123). -/
structure Drawing where
  disp : Display
  collision : Bool
deriving DecidableEq, Repr

/-- One pixel: `disp[r][c]` becomes `old != bit`, and a set bit on a lit pixel is a collision (R123). -/
def Drawing.toggle (p : Drawing) (r c : Nat) (bit : Bool) : Drawing :=
  { disp := Display.setPixel p.disp r c (Display.pixel p.disp r c != bit)
    collision := p.collision || (Display.pixel p.disp r c && bit) }

/-- The inner loop of R123: the sprite columns `0 .. n - 1` of one row, from display column `column`. -/
def drawColumns (sprite : Byte) (r column : Nat) (p : Drawing) : Nat → Drawing
  | 0 => p
  | b + 1 => (drawColumns sprite r column p b).toggle r (column + b) (spriteBit sprite b)

/-- The outer loop of R123: the sprite rows `0 .. n - 1`, row `r` read from `Mem[base + r]`. -/
def drawRows (m : Memory) (base column row : Nat) (p : Drawing) : Nat → Drawing
  | 0 => p
  | r + 1 => drawColumns (m.read (base + r)) (row + r) column (drawRows m base column row p r) 8

end Sys2Proof.Machine
end

