-- ==== Sys2Proof/Machine/Flags.lean ====
section
/-!
DEFINITION. The values written to the flag register `x[15]` (spec/10_state.md R12), each 0 or 1, and the order "result,
then flag" (spec/42_alu.md R91).
-/

namespace Sys2Proof.Machine

/-- A truth value as a byte: 0x00 or 0x01 (R12). -/
def flagByte (b : Bool) : Byte := if b then 1#8 else 0#8

/-- `ADD`: 1 iff `a + b >= 256` (R98). -/
def carryFlag (a b : Byte) : Byte := flagByte (decide (256 ≤ a.toNat + b.toNat))

/-- `SUB` and `SUBR`: 1 iff `a >= b`, no borrow in `a - b` (R99, R100). -/
def noBorrowFlag (a b : Byte) : Byte := flagByte (decide (b.toNat ≤ a.toNat))

/-- `SHR`: bit 0 of the old value (R101). -/
def shrFlag (a : Byte) : Byte := flagByte (a.getLsbD 0)

/-- `SHL`: bit 7 of the old value (R102). -/
def shlFlag (a : Byte) : Byte := flagByte (a.getLsbD 7)

/-- `DRAW`: 1 iff a pixel went from lit to unlit (R123). -/
def collisionFlag (p : Drawing) : Byte := flagByte p.collision

/-- The end of an instruction that writes a result: `x[r] <- v`, with `pc` advanced. -/
def State.finish (s : State) (r : Reg) (v : Byte) : State := s.advance.setReg r v

/-- The end of an instruction that writes a result and the flag: `x[r] <- v`, THEN `x[15] <- flag`, so that with
`r = 15` the flag is what remains (R91). -/
def State.finishWithFlag (s : State) (r : Reg) (v flag : Byte) : State := (s.finish r v).setReg flagReg flag

end Sys2Proof.Machine
end

