-- ==== Sys2Proof/Machine/Alu.lean ====
section
/-!
DEFINITION. The register and ALU instructions (spec/42_alu.md): `LDI`, `ADDI`, `MOV`, `OR`, `AND`, `XOR`, `ADD`, `SUB`,
`SUBR`, `SHR`, `SHL`, `RAND`. Every operand is read from the state before the step (R91).
-/

namespace Sys2Proof.Machine

/-- `LDI rX, nn` (R92). -/
def execLdi (x : Reg) (nn : Byte) (s : State) : Host.Outcome State Fault Refusal := .next (s.finish x nn)

/-- `ADDI rX, nn` (R93): no flag. -/
def execAddi (x : Reg) (nn : Byte) (s : State) : Host.Outcome State Fault Refusal :=
  .next (s.finish x (addResult (s.reg x) nn))

/-- `MOV rX, rY` (R94). -/
def execMov (x y : Reg) (s : State) : Host.Outcome State Fault Refusal := .next (s.finish x (s.reg y))

/-- `OR rX, rY` (R95): no flag. -/
def execOr (x y : Reg) (s : State) : Host.Outcome State Fault Refusal := .next (s.finish x (s.reg x ||| s.reg y))

/-- `AND rX, rY` (R96): no flag. -/
def execAnd (x y : Reg) (s : State) : Host.Outcome State Fault Refusal := .next (s.finish x (s.reg x &&& s.reg y))

/-- `XOR rX, rY` (R97): no flag. -/
def execXor (x y : Reg) (s : State) : Host.Outcome State Fault Refusal := .next (s.finish x (s.reg x ^^^ s.reg y))

/-- `ADD rX, rY` (R98). -/
def execAdd (x y : Reg) (s : State) : Host.Outcome State Fault Refusal :=
  .next (s.finishWithFlag x (addResult (s.reg x) (s.reg y)) (carryFlag (s.reg x) (s.reg y)))

/-- `SUB rX, rY` (R99): `x[x] - x[y]`. -/
def execSub (x y : Reg) (s : State) : Host.Outcome State Fault Refusal :=
  .next (s.finishWithFlag x (subResult (s.reg x) (s.reg y)) (noBorrowFlag (s.reg x) (s.reg y)))

/-- `SUBR rX, rY` (R100): `x[y] - x[x]`. -/
def execSubr (x y : Reg) (s : State) : Host.Outcome State Fault Refusal :=
  .next (s.finishWithFlag x (subResult (s.reg y) (s.reg x)) (noBorrowFlag (s.reg y) (s.reg x)))

/-- `SHR rX` (R101). -/
def execShr (x : Reg) (s : State) : Host.Outcome State Fault Refusal :=
  .next (s.finishWithFlag x (shrResult (s.reg x)) (shrFlag (s.reg x)))

/-- `SHL rX` (R102). -/
def execShl (x : Reg) (s : State) : Host.Outcome State Fault Refusal :=
  .next (s.finishWithFlag x (shlResult (s.reg x)) (shlFlag (s.reg x)))

/-- `RAND rX, nn` (R103): `x[0] <- nn & rnd` with one fresh draw. The field `x` is ignored: the destination is register
0 always (R60). -/
def execRand (_x : Reg) (nn : Byte) (s : State) : Host.Outcome State Fault Refusal :=
  .next { s.finish reg0 (nn &&& s.random.draw.1) with random := s.random.draw.2 }

end Sys2Proof.Machine
end

