-- ==== Sys2Proof/Machine/Control.lean ====
section
/-!
DEFINITION. The control-flow instructions (spec/40_control_flow.md): `HALT`, `JUMP`, `CALL`, `RET`, `JUMPV0`. A meaning
is given the state at the start of the step, `pc = a0`; the spec's rules write `pc` for `a0 + 2`.
-/

namespace Sys2Proof.Machine

/-- `HALT` (R71): `status <- Halted`, and `pc` stays `a0 + 2`. -/
def execHalt (s : State) : Host.Outcome State Fault Refusal := .next s.advance.halt

/-- `JUMP nnn` (R72): `pc <- nnn`. -/
def execJump (nnn : Addr12) (s : State) : Host.Outcome State Fault Refusal := .next (s.jumpTo (zext16 nnn))

/-- `CALL nnn` (R73): the overflow test, then `a0 + 2` onto the stack, then `pc <- nnn`. -/
def execCall (nnn : Addr12) (s : State) : Host.Outcome State Fault Refusal :=
  match s.push s.advance.pc with
  | none => s.fatal (.call nnn) .stackOverflow
  | some t => .next (t.jumpTo (zext16 nnn))

/-- `RET` (R74): the underflow test, then `pc` from the slot below `sp`. -/
def execRet (s : State) : Host.Outcome State Fault Refusal :=
  match s.pop with
  | none => s.fatal .ret .stackUnderflow
  | some (target, t) => .next (t.jumpTo target)

/-- `JUMPV0 nnn` (R75): `pc <- x[0] + nnn`, not cut to 12 bits. -/
def execJumpv0 (nnn : Addr12) (s : State) : Host.Outcome State Fault Refusal :=
  .next (s.jumpTo (jumpv0Target (s.reg reg0) nnn))

end Sys2Proof.Machine
end

