-- ==== Sys2Proof/Machine/Draw.lean ====
section
/-!
DEFINITION. The display instruction `DRAW` (spec/44_display.md).
-/

namespace Sys2Proof.Machine

/-- What `DRAW` makes of the display: a `d`-row sprite from `Mem[I]`, its top left corner at column `x[x]`, row `x[y]`
(R123). -/
def State.drawing (s : State) (x y : Reg) (d : Nat) : Drawing :=
  drawRows s.mem (s.effAddr 0) (s.reg x).toNat (s.reg y).toNat { disp := s.disp, collision := false } d

/-- `DRAW rX, rY, d` (R123): the memory check, then the display check (R144), then the pixels, then the flag. -/
def execDraw (x y : Reg) (d : Fin 16) (s : State) : Host.Outcome State Fault Refusal :=
  match s.outsideAtI d.val with
  | some a => s.fatal (.draw x y d) (.memoryBounds a)
  | none =>
    if rectangleOutside (s.reg x) (s.reg y) d.val then
      s.fatal (.draw x y d) (.displayBounds (s.reg x) (s.reg y) d)
    else
      .next { s.finish flagReg (collisionFlag (s.drawing x y d.val)) with disp := (s.drawing x y d.val).disp }

end Sys2Proof.Machine
end

