-- ==== Sys2Proof/Machine/MemIndirect.lean ====
section
/-!
DEFINITION. The memory-indirection instructions (spec/43_memory_indirection.md): `SETI`, `ADDA`, `DUMP`, `LOAD`, `BCD`.
All addresses of an instruction are checked before anything is written (R110); `I` is not moved by an access.
-/

namespace Sys2Proof.Machine

/-- `SETI nnn` (R111). -/
def execSeti (nnn : Addr12) (s : State) : Host.Outcome State Fault Refusal :=
  .next { s.advance with I := zext16 nnn }

/-- `ADDA rX` (R112): wraps at 16 bits; no flag, no bounds check. -/
def execAdda (x : Reg) (s : State) : Host.Outcome State Fault Refusal :=
  .next { s.advance with I := addaResult s.I (s.reg x) }

/-- `DUMP rX` (R113): `Mem[I + k] <- x[k]` for `k = 0 .. x`. -/
def execDump (x : Reg) (s : State) : Host.Outcome State Fault Refusal :=
  match s.outsideAtI (x.val + 1) with
  | some a => s.fatal (.dump x) (.memoryBounds a)
  | none => .next { s.advance with mem := s.mem.store (s.effAddr 0) (s.firstRegs (x.val + 1)) }

/-- `LOAD rX` (R114): `x[k] <- Mem[I + k]` for `k = 0 .. x`. -/
def execLoad (x : Reg) (s : State) : Host.Outcome State Fault Refusal :=
  match s.outsideAtI (x.val + 1) with
  | some a => s.fatal (.load x) (.memoryBounds a)
  | none => .next { s.advance with regs := loadRegs s.mem (s.effAddr 0) s.regs (x.val + 1) }

/-- `BCD rX` (R115): the decimal digits of `x[x]` to `Mem[I]`, `Mem[I + 1]`, `Mem[I + 2]`. -/
def execBcd (x : Reg) (s : State) : Host.Outcome State Fault Refusal :=
  match s.outsideAtI 3 with
  | some a => s.fatal (.bcd x) (.memoryBounds a)
  | none => .next { s.advance with mem := s.mem.store (s.effAddr 0) (bcdDigits (s.reg x)) }

end Sys2Proof.Machine
end

