-- ==== Sys2Proof/Machine/Skips.lean ====
section
/-!
DEFINITION. The conditional skips (spec/41_skips.md): `SKEQI`, `SKNEI`, `SKEQ`, `SKNE`.
-/

namespace Sys2Proof.Machine

/-- The common rule (R80): `pc` past the next instruction when the condition holds, else at it. The skipped bytes are
not looked at. -/
def State.skipIf (s : State) (condition : Bool) : State :=
  if condition then s.advance.advance else s.advance

/-- `SKEQI rX, nn` (R81). -/
def execSkeqi (x : Reg) (nn : Byte) (s : State) : Host.Outcome State Fault Refusal := .next (s.skipIf (s.reg x == nn))

/-- `SKNEI rX, nn` (R82). -/
def execSknei (x : Reg) (nn : Byte) (s : State) : Host.Outcome State Fault Refusal := .next (s.skipIf (s.reg x != nn))

/-- `SKEQ rX, rY` (R83). -/
def execSkeq (x y : Reg) (s : State) : Host.Outcome State Fault Refusal := .next (s.skipIf (s.reg x == s.reg y))

/-- `SKNE rX, rY` (R84). -/
def execSkne (x y : Reg) (s : State) : Host.Outcome State Fault Refusal := .next (s.skipIf (s.reg x != s.reg y))

end Sys2Proof.Machine
end

