-- ==== Sys2Proof/Machine/Dispatch.lean ====
section
/-!
DEFINITION. The dispatch: one arm per instruction, one direct call of its meaning.
-/

namespace Sys2Proof.Machine

def exec (i : Instr) (s : State) : Host.Outcome State Fault Refusal :=
  match i with
  -- control flow (spec/40_control_flow.md)
  | .halt => Sys2Proof.Machine.execHalt s
  | .ret => Sys2Proof.Machine.execRet s
  | .jump nnn => Sys2Proof.Machine.execJump nnn s
  | .call nnn => Sys2Proof.Machine.execCall nnn s
  | .jumpv0 nnn => Sys2Proof.Machine.execJumpv0 nnn s
  -- conditional skips (spec/41_skips.md)
  | .skeqi x nn => Sys2Proof.Machine.execSkeqi x nn s
  | .sknei x nn => Sys2Proof.Machine.execSknei x nn s
  | .skeq x y => Sys2Proof.Machine.execSkeq x y s
  | .skne x y => Sys2Proof.Machine.execSkne x y s
  -- registers and ALU (spec/42_alu.md)
  | .ldi x nn => Sys2Proof.Machine.execLdi x nn s
  | .addi x nn => Sys2Proof.Machine.execAddi x nn s
  | .mov x y => Sys2Proof.Machine.execMov x y s
  | .or x y => Sys2Proof.Machine.execOr x y s
  | .and x y => Sys2Proof.Machine.execAnd x y s
  | .xor x y => Sys2Proof.Machine.execXor x y s
  | .add x y => Sys2Proof.Machine.execAdd x y s
  | .sub x y => Sys2Proof.Machine.execSub x y s
  | .subr x y => Sys2Proof.Machine.execSubr x y s
  | .shr x => Sys2Proof.Machine.execShr x s
  | .shl x => Sys2Proof.Machine.execShl x s
  | .rand x nn => Sys2Proof.Machine.execRand x nn s
  -- memory indirection (spec/43_memory_indirection.md)
  | .seti nnn => Sys2Proof.Machine.execSeti nnn s
  | .adda x => Sys2Proof.Machine.execAdda x s
  | .dump x => Sys2Proof.Machine.execDump x s
  | .load x => Sys2Proof.Machine.execLoad x s
  | .bcd x => Sys2Proof.Machine.execBcd x s
  -- display (spec/44_display.md)
  | .draw x y d => Sys2Proof.Machine.execDraw x y d s

end Sys2Proof.Machine
end

