-- ==== Sys2Proof/Machine/Step.lean ====
section
/-!
DEFINITION. One step (spec/30_encoding.md R54): the latch, the fetch, the decoder, the instruction; and the placing of
one instruction where the next step fetches it.
-/

namespace Sys2Proof.Machine

/-- One request at the step port (R132). `Halted` and `Faulted` are terminal (R133). A running core fetches, decodes and
executes, and the checks come in the order of R144: the fetch's bounds, the opcode, then the instruction's own. Every
meaning is given the state at the start of the step and advances `pc` itself. -/
def step (s : State) : Host.Outcome State Fault Refusal :=
  match s.status with
  | .halted => .fault .stepAfterHalt
  | .faulted f => .fault (.stepAfterFatal f)
  | .running =>
    match fetch s with
    | .error cause => .next (s.raise none cause)
    | .ok w =>
      match decodeWord w with
      | .error _ => .next (s.raise (some w) .invalidOpcode)
      | .ok i => exec i s

/-- `s` with the instruction of the table's word `w` where the next step fetches: its two bytes at `pc`, the high byte
first (R31). It stands for the load of a program from outside (R160; notes/assumptions/3.md). -/
def State.withFetchWord (s : State) (nbits w : Nat) : State :=
  { s with mem := s.mem.store s.pc.toNat [highByte (tableWord nbits w), lowByte (tableWord nbits w)] }

end Sys2Proof.Machine
end

