-- ==== Sys2Proof/Machine/Ports.lean ====
section
/-!
DEFINITION. The ports of the core beside the step itself (spec/45_host_interface.md R130): the construction from the
launch inputs (R131, R160, R161), the answer of the step port (R132), the inspection port (R137), and the driver that
offers bytes on the random port (R134).
-/

namespace Sys2Proof.Machine

/-- The launch inputs (R7, R131), each at its default when it is not supplied. -/
structure Launch where
  /-- `INIT_REGISTERS`. -/
  registers : Vector Byte 16 := Vector.replicate 16 0#8
  /-- `PROGRAM_IMAGE`. -/
  image : List Byte := []
  /-- `INIT_DISPLAY`: what the platform presents at reset (R21, D10). -/
  display : Display := blankDisplay
deriving DecidableEq, Repr

/-- Reset (R160): everything zero, then the registers, then the image from address 200, then the glyph table (which
`Memory.unlisted` holds, and no image reaches), then `pc` and `status`. An image longer than 3896 bytes is refused
(R161). -/
def construct (l : Launch) : Except Refusal State :=
  if l.image.length ≤ Config.maxProgramLen then
    .ok { State.reset with
      regs := l.registers
      mem := State.reset.mem.store Config.programBase l.image
      disp := l.display }
  else .error (.imageTooLong l.image.length)

/-- The three answers of the step port (R132). -/
inductive Answer where
  | continues
  | halted
  | fatal (f : FaultRecord)
deriving DecidableEq, Repr

/-- The answer that goes with the status after a step (R132's table). -/
def Answer.ofStatus : Status → Answer
  | .running => .continues
  | .halted => .halted
  | .faulted f => .fatal f

/-- The answer of the step port to one request; none in a terminal status, where there is no step (R133). -/
def answer (s : State) : Option Answer :=
  match step s with
  | .next t => some (Answer.ofStatus t.status)
  | .fault _ => none
  | .refused _ => none

/-- The inspection port (R137): `x[index]`, in every status, with no side effect; an index above 15 is refused. -/
def inspect (s : State) (index : Nat) : Except Refusal Byte :=
  if h : index < 16 then .ok (s.reg ⟨index, h⟩) else .error (.inspectionIndex index)

/-- The environment puts the bytes of the draws to come on the random port (R134). -/
def State.offer (s : State) (bytes : List Byte) : State := { s with random := { s.random with offered := bytes } }

end Sys2Proof.Machine
end

