-- ==== Sys2Proof/Safety.lean ====
section
/-!
DEFINITION. The terms claims are stated in: what two states share, the invariant of spec/10_state.md R25, and what a run
is and how it ends (spec/45_host_interface.md R139, spec/60_exceptions.md R148).
-/

namespace Sys2Proof.Machine

/-! ### What two states share -/

/-- Every register outside `written` is the same. -/
def SameRegsBut (written : Reg → Prop) (s t : State) : Prop := ∀ r, ¬ written r → t.reg r = s.reg r

/-- Every register is the same. -/
def SameRegs (s t : State) : Prop := ∀ r, t.reg r = s.reg r

/-- The stack pointer and every slot are the same. -/
def SameStack (s t : State) : Prop := t.sp = s.sp ∧ ∀ k, t.slot k = s.slot k

/-- Every byte of memory reads the same. -/
def SameMemory (s t : State) : Prop := ∀ a, t.mem.read a = s.mem.read a

/-- Every byte of memory outside the `n` from `base` reads the same. -/
def SameMemoryBut (base n : Nat) (s t : State) : Prop :=
  ∀ a, (a < base ∨ base + n ≤ a) → t.mem.read a = s.mem.read a

/-- Every pixel is the same. -/
def SameDisplay (s t : State) : Prop :=
  ∀ r < 32, ∀ c < 64, Display.pixel t.disp r c = Display.pixel s.disp r c

/-- The latch is the same, or it records a fault. -/
def SameStatusOrFault (s t : State) : Prop := t.status = s.status ∨ ∃ f, t.status = .faulted f

/-- `t` is `s` with the fault recorded, and nothing else changed (R146). -/
def FaultedFrom (s t : State) (word : Option Word) (cause : FatalCause) : Prop :=
  t = { s with status := .faulted { a0 := s.pc, word := word, cause := cause } }

/-- The same outcome with the random port of its next state replaced. -/
def withRandom (p : RandomPort) : Host.Outcome State Fault Refusal → Host.Outcome State Fault Refusal
  | .next t => .next { t with random := p }
  | .fault f => .fault f
  | .refused r => .refused r

/-- The instruction in memory at `pc`: its two bytes are inside memory and the decoder reads it (R54). -/
def State.instrAt (s : State) : Option Instr :=
  if s.pc.toNat ≤ 4094 then
    (decodeWord (wordOfBytes (s.mem.read s.pc.toNat) (s.mem.read (s.pc.toNat + 1)))).toOption
  else none

/-! ### The invariant -/

/-- R25, as far as the types leave it to be said: memory is in its canonical form, `pc` is at most 4350, and every slot
below `sp` is 2 to 4096. (`0 <= sp <= 16` and the widths of the registers and of `I` stand in the types.) -/
def State.Inv (s : State) : Prop :=
  s.mem.wf = true ∧ s.pc.toNat ≤ 4350 ∧
    ∀ k : Fin 16, k.val < s.sp.val → 2 ≤ (s.slot k).toNat ∧ (s.slot k).toNat ≤ 4096

/-! ### Runs -/

/-- `n` steps from `s` end in `t` (R139). -/
def Reaches : Nat → State → State → Prop
  | 0, s, t => s = t
  | n + 1, s, t => ∃ u, step s = .next u ∧ Reaches n u t

/-- The run from `s` ends normally, in a state with `P` (R139 (a), R148). -/
def HaltsWith (s : State) (P : State → Prop) : Prop := ∃ n t, Reaches n s t ∧ t.status = .halted ∧ P t

/-- The run from `s` never meets a fault, however long the driver goes on (R148). -/
def NeverFaults (s : State) : Prop := ∀ n t f, Reaches n s t → t.status ≠ .faulted f

end Sys2Proof.Machine
end

