-- ==== Sys2Proof/WellFormed.lean ====
section
/-!
DEFINITION. Well-formedness. A line of assembly is a mnemonic and its operands as plain numbers (spec/30_encoding.md
R61); it is well formed when the mnemonic takes that many operands and each is in range: "`nnn` is 0 to 4095, `nn` 0 to
255, `d` 0 to 15; an immediate out of range is an assembly error, never truncated". A term of `Instr` carries these
ranges in its types, and `Instr.toLine` gives its line.
-/

namespace Sys2Proof

/-- A line of assembly: the mnemonic and the operands as numbers, a register by its index (R61). -/
structure AsmLine where
  mnemonic : Mnemonic
  operands : List Nat
deriving DecidableEq, Repr

/-- The six operand formats of R53. -/
inductive Format where
  | Z | N | XN | XY | X | XYD
deriving DecidableEq, Repr

/-- The format of each row of the opcode map (R53, R56). -/
def Mnemonic.format : Mnemonic → Format
  | .HALT | .RET => .Z
  | .JUMP | .CALL | .SETI | .JUMPV0 => .N
  | .SKEQI | .SKNEI | .LDI | .ADDI | .RAND => .XN
  | .SKEQ | .SKNE | .MOV | .OR | .AND | .XOR | .ADD | .SUB | .SUBR => .XY
  | .SHR | .SHL | .ADDA | .BCD | .DUMP | .LOAD => .X
  | .DRAW => .XYD

/-- The bound each operand of a format stays below (R52, R61). -/
def Format.bounds : Format → List Nat
  | .Z => []
  | .N => [4096]
  | .XN => [16, 256]
  | .XY => [16, 16]
  | .X => [16]
  | .XYD => [16, 16, 16]

/-- As many operands as bounds, and each operand below its bound. -/
def inBounds : List Nat → List Nat → Bool
  | [], [] => true
  | v :: vs, b :: bs => decide (v < b) && inBounds vs bs
  | _, _ => false

/-- A line is well formed when it has its format's operands, each in range (R61). -/
def AsmLine.wellFormed (l : AsmLine) : Bool :=
  inBounds l.operands l.mnemonic.format.bounds

/-- The line of an instruction (R61). -/
def Instr.toLine (i : Instr) : AsmLine :=
  { mnemonic := i.mnemonic
    operands :=
      match i with
      | .halt | .ret => []
      | .jump nnn | .call nnn | .seti nnn | .jumpv0 nnn => [nnn.toNat]
      | .skeqi x nn | .sknei x nn | .ldi x nn | .addi x nn | .rand x nn => [x.val, nn.toNat]
      | .skeq x y | .skne x y | .mov x y | .or x y | .and x y | .xor x y | .add x y | .sub x y | .subr x y =>
        [x.val, y.val]
      | .shr x | .shl x | .adda x | .bcd x | .dump x | .load x => [x.val]
      | .draw x y d => [x.val, y.val, d.val] }

/-- An instruction is well formed when its line is; its types see to it (the obligation LinesAndInstructionsAgree says so). -/
def Instr.wellFormed (i : Instr) : Bool := i.toLine.wellFormed

/-- The instruction a line stands for; none when the line is not well formed. `RAND` may leave out its register
operand, which then counts as 0 (R61, the canonical form). -/
def AsmLine.toInstr (l : AsmLine) : Option Instr :=
  match l.mnemonic, l.operands with
  | .RAND, [nn] => if nn < 256 then some (.rand 0 (BitVec.ofNat 8 nn)) else none
  | m, ops =>
    if inBounds ops m.format.bounds then
      let reg (k : Nat) : Reg := Fin.ofNat 16 (ops.getD k 0)
      let nn : Byte := BitVec.ofNat 8 (ops.getD 1 0)
      let nnn : Addr12 := BitVec.ofNat 12 (ops.getD 0 0)
      some (match m with
        | .HALT => .halt
        | .RET => .ret
        | .JUMP => .jump nnn
        | .CALL => .call nnn
        | .SKEQI => .skeqi (reg 0) nn
        | .SKNEI => .sknei (reg 0) nn
        | .SKEQ => .skeq (reg 0) (reg 1)
        | .LDI => .ldi (reg 0) nn
        | .ADDI => .addi (reg 0) nn
        | .MOV => .mov (reg 0) (reg 1)
        | .OR => .or (reg 0) (reg 1)
        | .AND => .and (reg 0) (reg 1)
        | .XOR => .xor (reg 0) (reg 1)
        | .ADD => .add (reg 0) (reg 1)
        | .SUB => .sub (reg 0) (reg 1)
        | .SHR => .shr (reg 0)
        | .SUBR => .subr (reg 0) (reg 1)
        | .SHL => .shl (reg 0)
        | .SKNE => .skne (reg 0) (reg 1)
        | .SETI => .seti nnn
        | .JUMPV0 => .jumpv0 nnn
        | .RAND => .rand (reg 0) nn
        | .DRAW => .draw (reg 0) (reg 1) (Fin.ofNat 16 (ops.getD 2 0))
        | .ADDA => .adda (reg 0)
        | .BCD => .bcd (reg 0)
        | .DUMP => .dump (reg 0)
        | .LOAD => .load (reg 0))
    else none

end Sys2Proof
end

