-- ==== Sys2Proof/Certificates/Slice0/Obligations.lean ====
section
/-!
DEFINITION. The statements for the provers, in the order of OBLIGATIONS.json. A statement marked DERIVED rests, in the
clause its docstring names, on a choice the spec marks as its own (D1 to D25 of spec/92_eei_decisions.md) or on one of
the model's (notes/assumptions/).
-/

open Sys2Proof Sys2Proof.Machine

/-! ### Encoding -/

/-- Decoding the word, or the bytes, of an instruction gives the instruction (R50, R51, R56). -/
def Obligations.DecodeOfEncodeIsIdentity : Prop :=
  ∀ (i : Instr), i.wellFormed = true →
    decodeWord (encode i) = .ok i ∧ ∀ rest, decode (encodeBytes i ++ rest) = .ok (i, rest)

/-- Every word the decoder accepts is the encoding of what it reads: no two words are the same instruction, so the word
a fault records (R142) is the one that was fetched. DERIVED: the shifts' `y = 0` is D5. -/
def Obligations.EncodeOfDecodeIsIdentity : Prop :=
  ∀ (w : Word) (i : Instr), decodeWord w = .ok i → encode i = w

/-- The decoder, written by leading nibble (R57), agrees with the table of masks and matches (R56): no word selects two
rows; a word that selects a row decodes to an instruction of that row; a word that selects none is rejected as itself
(R55). DERIVED: the masks of the two shifts are D5. -/
def Obligations.DecoderFollowsOpcodeMap : Prop :=
  ∀ w : Word,
    (∀ r₁ ∈ opcodeTable, ∀ r₂ ∈ opcodeTable, r₁.selects w = true → r₂.selects w = true → r₁ = r₂) ∧
    (∀ r ∈ opcodeTable, r.selects w = true → ∃ i, decodeWord w = .ok i ∧ i.mnemonic = r.mnemonic) ∧
    ((∀ r ∈ opcodeTable, r.selects w = false) → decodeWord w = .error (.invalidOpcode w))

/-- Seven words, at least one of each format, read as spec/30_encoding.md R61 spells them, and two words are no
instruction: 0x00E0, which is in no row of the map (R58), and 0x8156, a shift with `y = 5`. DERIVED: the syntax is D15
(notes/assumptions/20.md), and that 0x8156 is no instruction is D5 (notes/assumptions/7.md). -/
def Obligations.SampleWordsDecode : Prop :=
  decodeTableWord 16 0x0000 = some .halt ∧ decodeTableWord 16 0x00EE = some .ret ∧
  decodeTableWord 16 0x1FFF = some (.jump 0xFFF#12) ∧ decodeTableWord 16 0x6A7F = some (.ldi 10 0x7F#8) ∧
  decodeTableWord 16 0x8F17 = some (.subr 15 1) ∧ decodeTableWord 16 0xFF65 = some (.load 15) ∧
  decodeTableWord 16 0xD12F = some (.draw 1 2 15) ∧ decodeTableWord 16 0x00E0 = none ∧
  decodeTableWord 16 0x8156 = none

/-- Instructions and well-formed lines of assembly stand for each other (R61). DERIVED: the syntax is D15. -/
def Obligations.LinesAndInstructionsAgree : Prop :=
  (∀ i : Instr, i.wellFormed = true ∧ i.toLine.toInstr = some i) ∧
  (∀ l : AsmLine, l.wellFormed = true → ∃ i, l.toInstr = some i ∧ i.toLine = l)

/-! ### The step -/

/-- The fetch is big-endian: the byte at the lower address is the more significant, at every `pc` from which two bytes
can be read, odd or even (R31). -/
def Obligations.FetchIsBigEndian : Prop :=
  ∀ s : State, s.pc.toNat ≤ 4094 →
    ∃ w : Word, fetch s = .ok w ∧ w.toNat = (s.mem.read s.pc.toNat).toNat * 256 + (s.mem.read (s.pc.toNat + 1)).toNat

/-- A running core runs the instruction at `pc` (R54): the step IS `exec` of it at the state the step began in. `exec`
itself moves `pc` past the word, as the result and frame statements below say. -/
def Obligations.StepRunsTheDecodedInstruction : Prop :=
  ∀ (s : State) (i : Instr), s.status = .running → s.pc.toNat ≤ 4094 →
    decodeWord (wordOfBytes (s.mem.read s.pc.toNat) (s.mem.read (s.pc.toNat + 1))) = .ok i → step s = exec i s

/-- An instruction placed where the next step fetches is the one the next step runs. DERIVED: a loading from outside is
the model's own stand-in for the launch (notes/assumptions/3.md). -/
def Obligations.PlacedInstructionRuns : Prop :=
  ∀ (s : State) (w : Nat) (i : Instr), s.Inv → s.status = .running → s.pc.toNat ≤ 4094 →
    decodeTableWord 16 w = some i → step (s.withFetchWord 16 w) = exec i (s.withFetchWord 16 w)

/-- A fetch with an address above 4095 is fatal: cause 4 with the lowest such address, no word recorded, nothing else
changed (R33, R142, R146). DERIVED: D2, D3. -/
def Obligations.FetchOutsideMemoryIsFatal : Prop :=
  ∀ s : State, s.status = .running → 4095 ≤ s.pc.toNat →
    ∃ t, step s = .next t ∧ FaultedFrom s t none (.memoryBounds (max s.pc.toNat 4096))

/-- A running core that fetches a word outside the 27 patterns stops with cause 3 and that word, nothing else changed,
and the words outside them are those R58 lists. DERIVED: the shifts with `y != 0` are D5, the unchanged state is D3. -/
def Obligations.InvalidWordsAreFatal : Prop :=
  ∀ (s : State) (w : Word), s.status = .running → fetch s = .ok w →
    ((fieldC w = 0x0#4 ∧ w ≠ 0x0000#16 ∧ w ≠ 0x00EE#16) ∨
      (fieldC w = 0x5#4 ∧ fieldD w ≠ 0x0#4) ∨
      (fieldC w = 0x8#4 ∧ (fieldD w).toNat ∈ [0x8, 0x9, 0xA, 0xB, 0xC, 0xD, 0xF]) ∨
      (fieldC w = 0x8#4 ∧ (fieldD w).toNat ∈ [0x6, 0xE] ∧ fieldY w ≠ 0x0#4) ∨
      (fieldC w = 0x9#4 ∧ fieldD w ≠ 0x0#4) ∨
      fieldC w = 0xE#4 ∨
      (fieldC w = 0xF#4 ∧ (fieldNN w).toNat ∉ [0x1E, 0x33, 0x55, 0x65])) →
    ∃ t, step s = .next t ∧ FaultedFrom s t (some w) .invalidOpcode

/-- `Halted` and `Faulted` are terminal: there is no step (R133). DERIVED: D4. -/
def Obligations.TerminalStatusHasNoStep : Prop :=
  ∀ s : State,
    (s.status = .halted → step s = .fault .stepAfterHalt ∧ answer s = none) ∧
    (∀ f, s.status = .faulted f → step s = .fault (.stepAfterFatal f) ∧ answer s = none)

/-- A running core always answers, and answers as R132's table says: `Halted` exactly when the word is 0x0000,
`Continue` or `Fatal` for another instruction, `Fatal` when there is none. DERIVED: the latch is D4. -/
def Obligations.EveryRequestIsAnswered : Prop :=
  ∀ s : State, s.status = .running →
    ∃ t, step s = .next t ∧ answer s = some (Answer.ofStatus t.status) ∧
      (answer s = some .halted ↔ fetch s = .ok 0x0000#16) ∧
      (s.instrAt = none → ∃ f, answer s = some (.fatal f)) ∧
      (∀ i, s.instrAt = some i → i ≠ .halt → (answer s = some .continues ∨ ∃ f, answer s = some (.fatal f)))

/-- Faults are precise (R145, R146): a step of a running core that ends `Faulted` changed nothing but the latch, and the
latch holds the address of the instruction and, if the fetch succeeded, its word. DERIVED: D3, D8. -/
def Obligations.FaultsArePrecise : Prop :=
  ∀ (s t : State) (f : FaultRecord), s.status = .running → step s = .next t → t.status = .faulted f →
    t = { s with status := .faulted f } ∧ f.a0 = s.pc ∧
      (∀ w, fetch s = .ok w → f.word = some w) ∧ (∀ c, fetch s = .error c → f.word = none ∧ f.cause = c)

/-- Which faults an instruction can raise (R143): overflow by `CALL`, underflow by `RET`, memory bounds by `DUMP`,
`LOAD`, `BCD`, `DRAW`, display bounds by `DRAW`, and none by any other. DERIVED: the causes 4 and 5 are D2, D6. -/
def Obligations.InstructionsRaiseOnlyTheirFaults : Prop :=
  ∀ (i : Instr) (s t : State) (f : FaultRecord), s.status = .running → exec i s = .next t → t.status = .faulted f →
    match f.cause with
    | .stackOverflow => i.mnemonic = .CALL ∧ s.sp.val = 16
    | .stackUnderflow => i.mnemonic = .RET ∧ s.sp.val = 0
    | .invalidOpcode => False
    | .memoryBounds a => i.mnemonic ∈ [.DUMP, .LOAD, .BCD, .DRAW] ∧ a = max s.I.toNat 4096
    | .displayBounds _ _ _ => i.mnemonic = .DRAW

/-! ### Reset and the ports -/

/-- The state after construction, for every launch (R26, R160, R161): the registers and the display as supplied, the
image from 200, the glyph table at 0 to 79 whatever is supplied, zero elsewhere. A longer image is refused. With no launch
input it is the reset state. DERIVED: `I`, `sp`, the display and the bytes not named are D9 and D10, the refusal D16. -/
def Obligations.ConstructionGivesTheResetState : Prop :=
  construct {} = .ok State.reset ∧
  ∀ l : Launch,
    (3896 < l.image.length → construct l = .error (.imageTooLong l.image.length)) ∧
    (l.image.length ≤ 3896 →
      ∃ s, construct l = .ok s ∧ (∀ r : Reg, s.reg r = l.registers[r]) ∧ s.pc = 200#16 ∧ s.I = 0#16 ∧ s.sp = 0 ∧
        (∀ k, s.slot k = 0#16) ∧ s.disp = l.display ∧ s.status = .running ∧
        (∀ a < 80, s.mem.read a = Config.glyphByte a) ∧ (∀ a, 80 ≤ a → a < 200 → s.mem.read a = 0#8) ∧
        (∀ k (h : k < l.image.length), s.mem.read (200 + k) = l.image[k]) ∧
        (∀ a, 200 + l.image.length ≤ a → s.mem.read a = 0#8))

/-- The inspection port reads `x[index]` in every status, and turns an index above 15 away (R137). DERIVED: D23. -/
def Obligations.InspectionReadsTheRegister : Prop :=
  ∀ s : State, (∀ r : Reg, inspect s r.val = .ok (s.reg r)) ∧
    (∀ n, 16 ≤ n → inspect s n = .error (.inspectionIndex n))

/-- Only `RAND` reads the random port (R134): with the port replaced, every other instruction does the same and leaves
the port as it is. DERIVED: the port as a field of the state is the model's own (notes/assumptions/2.md). -/
def Obligations.OnlyRandReadsTheRandomPort : Prop :=
  ∀ (i : Instr) (s : State) (p : RandomPort), i.mnemonic ≠ .RAND →
    exec i { s with random := p } = withRandom p (exec i s)

/-! ### Invariants and whole-machine rules -/

/-- The invariant of R25 holds after reset. DERIVED: the canonical form of memory is the model's own. -/
def Obligations.ResetMeetsTheInvariant : Prop := State.reset.Inv

/-- The invariant of R25 holds after every construction that is not refused. DERIVED, as above. -/
def Obligations.ConstructionMeetsTheInvariant : Prop := ∀ (l : Launch) (s : State), construct l = .ok s → s.Inv

/-- Every step keeps the invariant of R25, from every state that meets it. DERIVED, as above. -/
def Obligations.StepKeepsTheInvariant : Prop := ∀ s t : State, s.Inv → step s = .next t → t.Inv

/-- A run that reaches `Halted` never meets a fault, before or after: `Halted` is final (R133, R139, R148). DERIVED:
D4. -/
def Obligations.HaltedRunsNeverFault : Prop := ∀ (s : State) (P : State → Prop), HaltsWith s P → NeverFaults s

/-- Who writes what, over all instructions: `I` only `SETI` and `ADDA` (R16), a stack slot only `CALL` (R17), `sp` only
`CALL` and `RET` (R18), memory only `DUMP` and `BCD` (R20), the display only `DRAW` (R21), `Halted` only `HALT`.
DERIVED: the frame rule is D14. -/
def Obligations.OnlyTheNamedInstructionsWrite : Prop :=
  ∀ (i : Instr) (s t : State), exec i s = .next t →
    (t.I ≠ s.I → i.mnemonic ∈ [.SETI, .ADDA]) ∧ (t.stack ≠ s.stack → i.mnemonic = .CALL) ∧
    (t.sp ≠ s.sp → i.mnemonic ∈ [.CALL, .RET]) ∧ (t.mem ≠ s.mem → i.mnemonic ∈ [.DUMP, .BCD]) ∧
    (t.disp ≠ s.disp → i.mnemonic = .DRAW) ∧ (s.status = .running → t.status = .halted → i = .halt)

/-- The canonical form is one form: two memories in it that read the same everywhere are the same data. DERIVED: the
form is the model's own. -/
def Obligations.MemoriesThatReadTheSameAreEqual : Prop :=
  ∀ m n : Memory, m.wf = true → n.wf = true → (∀ a, m.read a = n.read a) → m = n

/-! ### Control flow -/

/-- `HALT` (R71): `Halted`, `pc` past the word, no step after it, and nothing else changed; only the word 0x0000 halts,
and the other words with `c = 0`, but for 0x00EE, are invalid. DERIVED: the latch is D4, the frame D14. -/
def Obligations.HaltStopsTheCore : Prop :=
  (∀ s : State, ∃ t, exec .halt s = .next t ∧ t.status = .halted ∧ t.pc = s.pc + 2#16 ∧
    step t = .fault .stepAfterHalt ∧ SameRegs s t ∧ t.I = s.I ∧ SameStack s t ∧ SameMemory s t ∧ SameDisplay s t) ∧
  (∀ w : Word, (decodeWord w = .ok .halt ↔ w = 0x0000#16) ∧
    (w.toNat ≤ 0x0FFF → w ≠ 0x0000#16 → w ≠ 0x00EE#16 → decodeWord w = .error (.invalidOpcode w)))

/-- `JUMP nnn` (R72): `pc` is `nnn`, any value 0 to 0xFFF; no flag is written and the step does not fault.
DERIVED: that `x[15]` keeps its value is D14 (notes/assumptions/10.md). -/
def Obligations.JumpGoesToItsTarget : Prop :=
  ∀ (nnn : Addr12) (s : State), ∃ t, exec (.jump nnn) s = .next t ∧ t.pc.toNat = nnn.toNat ∧
    t.reg 15 = s.reg 15 ∧ t.status = s.status

/-- `CALL nnn` (R73): with a free slot, `a0 + 2` goes into `stack[sp]`, `sp` goes up by one and `pc` to `nnn`, and no
register and not `I` is saved or changed; with `sp = 16`, `StackOverflow`, and nothing is written. DERIVED: the frame is
D14, the state after the fault D3 and D4. -/
def Obligations.CallPushesAndJumps : Prop :=
  ∀ (nnn : Addr12) (s : State),
    (∀ h : s.sp.val < 16, ∃ t, exec (.call nnn) s = .next t ∧ t.slot ⟨s.sp.val, h⟩ = s.pc + 2#16 ∧
      t.sp.val = s.sp.val + 1 ∧ t.pc.toNat = nnn.toNat ∧ SameRegs s t ∧ t.I = s.I ∧ t.status = s.status) ∧
    (s.sp.val = 16 → ∃ t, exec (.call nnn) s = .next t ∧
      FaultedFrom s t (some (encode (.call nnn))) .stackOverflow)

/-- `RET` (R74): with a pending call, `sp` goes down by one and `pc` to the slot it then names, which keeps its value;
with `sp = 0`, `StackUnderflow`, and nothing is written. A `RET` straight after a `CALL` comes back to the word after
the `CALL` with `sp` as it was. DERIVED: the frame is D14, the state after the fault D3 and D4. -/
def Obligations.RetReturnsToTheSavedPc : Prop :=
  (∀ s : State,
    (∀ h : 0 < s.sp.val, ∃ t, exec .ret s = .next t ∧ t.sp.val = s.sp.val - 1 ∧
      t.pc = s.slot ⟨s.sp.val - 1, by omega⟩ ∧ (∀ k, t.slot k = s.slot k) ∧ SameRegs s t ∧ t.status = s.status) ∧
    (s.sp.val = 0 → ∃ t, exec .ret s = .next t ∧ FaultedFrom s t (some (encode .ret)) .stackUnderflow)) ∧
  (∀ (nnn : Addr12) (s : State), s.sp.val < 16 → ∃ t u, exec (.call nnn) s = .next t ∧ exec .ret t = .next u ∧
    u.pc = s.pc + 2#16 ∧ u.sp = s.sp)

/-- `JUMPV0 nnn` (R75): `pc` is `x[0] + nnn`, not cut to 12 bits; no flag, no fault. DERIVED: the sum is D20, that
`x[15]` keeps its value D14. -/
def Obligations.JumpV0AddsRegisterZero : Prop :=
  ∀ (nnn : Addr12) (s : State), ∃ t, exec (.jumpv0 nnn) s = .next t ∧
    t.pc.toNat = (s.reg 0).toNat + nnn.toNat ∧ t.reg 15 = s.reg 15 ∧ t.status = s.status

/-! ### Skips -/

/-- `SKEQI` and `SKNEI` (R81, R82): one skips when the register is `nn` and the other when it is not, so exactly one of
them skips; no flag, no fault. DERIVED: that `x[15]` keeps its value is D14 (notes/assumptions/10.md). -/
def Obligations.ImmediateSkipsCompare : Prop :=
  ∀ (x : Reg) (nn : Byte) (s : State), ∃ t u, exec (.skeqi x nn) s = .next t ∧ exec (.sknei x nn) s = .next u ∧
    (s.reg x = nn → t.pc = s.pc + 4#16 ∧ u.pc = s.pc + 2#16) ∧
    (s.reg x ≠ nn → t.pc = s.pc + 2#16 ∧ u.pc = s.pc + 4#16) ∧
    t.reg 15 = s.reg 15 ∧ u.reg 15 = s.reg 15 ∧ t.status = s.status ∧ u.status = s.status

/-- `SKEQ` and `SKNE` (R83, R84): the same over two registers; with `x = y` the one always skips and the other never;
the words with `d != 0` are invalid. DERIVED: that `x[15]` keeps its value is D14 (notes/assumptions/10.md). -/
def Obligations.RegisterSkipsCompare : Prop :=
  (∀ (x y : Reg) (s : State), ∃ t u, exec (.skeq x y) s = .next t ∧ exec (.skne x y) s = .next u ∧
    (s.reg x = s.reg y → t.pc = s.pc + 4#16 ∧ u.pc = s.pc + 2#16) ∧
    (s.reg x ≠ s.reg y → t.pc = s.pc + 2#16 ∧ u.pc = s.pc + 4#16) ∧
    (x = y → t.pc = s.pc + 4#16 ∧ u.pc = s.pc + 2#16) ∧
    t.reg 15 = s.reg 15 ∧ u.reg 15 = s.reg 15 ∧ t.status = s.status ∧ u.status = s.status) ∧
  (∀ w : Word, (fieldC w = 0x5#4 ∨ fieldC w = 0x9#4) → fieldD w ≠ 0x0#4 → decodeWord w = .error (.invalidOpcode w))

/-! ### Registers and ALU -/

/-- `LDI` (R92): the register takes `nn`, register 15 like any other; no flag as a side effect, no fault.
DERIVED: that `x[15]` keeps its value is D14 (notes/assumptions/10.md). -/
def Obligations.LdiLoadsTheImmediate : Prop :=
  ∀ (x : Reg) (nn : Byte) (s : State), ∃ t, exec (.ldi x nn) s = .next t ∧ t.reg x = nn ∧
    (x ≠ 15 → t.reg 15 = s.reg 15) ∧ t.pc = s.pc + 2#16 ∧ t.status = s.status

/-- `ADDI` (R93): the sum modulo 256; the flag keeps its value whether or not the sum passed 255, unless it is the
destination (the source's own words); `nn = 0` leaves the register; `nn = 256 - k` subtracts `k`. -/
def Obligations.AddiAddsWithoutFlag : Prop :=
  ∀ (x : Reg) (nn : Byte) (s : State), ∃ t, exec (.addi x nn) s = .next t ∧
    (t.reg x).toNat = ((s.reg x).toNat + nn.toNat) % 256 ∧ (x ≠ 15 → t.reg 15 = s.reg 15) ∧
    (nn = 0#8 → t.reg x = s.reg x) ∧
    (∀ k, 1 ≤ k → k ≤ 255 → nn.toNat = 256 - k → k ≤ (s.reg x).toNat → (t.reg x).toNat = (s.reg x).toNat - k) ∧
    t.pc = s.pc + 2#16 ∧ t.status = s.status

/-- `MOV` (R94): the register takes the other's value; with `x = y` no register changes; no flag, no fault.
DERIVED: that `x[15]`, and with `x = y` every register, keeps its value is D14 (notes/assumptions/10.md). -/
def Obligations.MovCopiesARegister : Prop :=
  ∀ (x y : Reg) (s : State), ∃ t, exec (.mov x y) s = .next t ∧ t.reg x = s.reg y ∧ (x ≠ 15 → t.reg 15 = s.reg 15) ∧
    (x = y → SameRegs s t) ∧ t.pc = s.pc + 2#16 ∧ t.status = s.status

/-- `OR`, `AND`, `XOR` (R95, R96, R97): bit by bit, no flag, no fault; with `x = y` the first two leave the register and
`XOR` clears it. DERIVED: that `x[15]` keeps its value is D14 (notes/assumptions/10.md). -/
def Obligations.LogicWorksBitByBit : Prop :=
  ∀ (x y : Reg) (s : State), ∃ t u v,
    exec (.or x y) s = .next t ∧ exec (.and x y) s = .next u ∧ exec (.xor x y) s = .next v ∧
    (∀ k < 8, (t.reg x).getLsbD k = ((s.reg x).getLsbD k || (s.reg y).getLsbD k)) ∧
    (∀ k < 8, (u.reg x).getLsbD k = ((s.reg x).getLsbD k && (s.reg y).getLsbD k)) ∧
    (∀ k < 8, (v.reg x).getLsbD k = ((s.reg x).getLsbD k ^^ (s.reg y).getLsbD k)) ∧
    (x = y → t.reg x = s.reg x ∧ u.reg x = s.reg x ∧ v.reg x = 0#8) ∧
    (x ≠ 15 → t.reg 15 = s.reg 15 ∧ u.reg 15 = s.reg 15 ∧ v.reg 15 = s.reg 15) ∧
    t.pc = s.pc + 2#16 ∧ u.pc = s.pc + 2#16 ∧ v.pc = s.pc + 2#16 ∧
    t.status = s.status ∧ u.status = s.status ∧ v.status = s.status

/-- `ADD` (R98): the sum modulo 256, and the flag 1 iff the sum is 256 or more. DERIVED: with `x = 15` the flag is what
remains (D13). -/
def Obligations.AddGivesSumAndCarry : Prop :=
  ∀ (x y : Reg) (s : State), ∃ t, exec (.add x y) s = .next t ∧
    (x ≠ 15 → (t.reg x).toNat = ((s.reg x).toNat + (s.reg y).toNat) % 256) ∧
    t.reg 15 = (if 256 ≤ (s.reg x).toNat + (s.reg y).toNat then 1#8 else 0#8) ∧
    t.pc = s.pc + 2#16 ∧ t.status = s.status

/-- `SUB` (R99): the difference `x[x] - x[y]` modulo 256, and the flag 1 iff there is no borrow. DERIVED: `x = 15`
(D13). -/
def Obligations.SubGivesDifferenceAndNoBorrow : Prop :=
  ∀ (x y : Reg) (s : State), ∃ t, exec (.sub x y) s = .next t ∧
    (x ≠ 15 → ((t.reg x).toNat : Int) = ((s.reg x).toNat - (s.reg y).toNat : Int) % 256) ∧
    t.reg 15 = (if (s.reg y).toNat ≤ (s.reg x).toNat then 1#8 else 0#8) ∧
    t.pc = s.pc + 2#16 ∧ t.status = s.status

/-- `SUBR` (R100): the difference `x[y] - x[x]` modulo 256, and the flag 1 iff there is no borrow. DERIVED: `x = 15`
(D13). -/
def Obligations.SubrSubtractsTheOtherWay : Prop :=
  ∀ (x y : Reg) (s : State), ∃ t, exec (.subr x y) s = .next t ∧
    (x ≠ 15 → ((t.reg x).toNat : Int) = ((s.reg y).toNat - (s.reg x).toNat : Int) % 256) ∧
    t.reg 15 = (if (s.reg x).toNat ≤ (s.reg y).toNat then 1#8 else 0#8) ∧
    t.pc = s.pc + 2#16 ∧ t.status = s.status

/-- `SHR` (R101): bit `k` becomes bit `k + 1`, zero enters bit 7, and the flag is the old bit 0. DERIVED: `x = 15`
(D13). -/
def Obligations.ShrShiftsRightByOne : Prop :=
  ∀ (x : Reg) (s : State), ∃ t, exec (.shr x) s = .next t ∧
    (x ≠ 15 → (∀ k < 7, (t.reg x).getLsbD k = (s.reg x).getLsbD (k + 1)) ∧ (t.reg x).getLsbD 7 = false) ∧
    t.reg 15 = (if (s.reg x).getLsbD 0 then 1#8 else 0#8) ∧
    t.pc = s.pc + 2#16 ∧ t.status = s.status

/-- `SHL` (R102): bit `k + 1` becomes bit `k`, zero enters bit 0, and the flag is the old bit 7. DERIVED: `x = 15`
(D13). -/
def Obligations.ShlShiftsLeftByOne : Prop :=
  ∀ (x : Reg) (s : State), ∃ t, exec (.shl x) s = .next t ∧
    (x ≠ 15 → (∀ k < 7, (t.reg x).getLsbD (k + 1) = (s.reg x).getLsbD k) ∧ (t.reg x).getLsbD 0 = false) ∧
    t.reg 15 = (if (s.reg x).getLsbD 7 then 1#8 else 0#8) ∧
    t.pc = s.pc + 2#16 ∧ t.status = s.status

/-- `RAND` (R103): register 0, whatever the field `x`, takes `nn` AND one fresh byte: the byte the environment offers
when it offers one. No bit outside `nn` is ever set, and every result inside `nn` is possible; no other register, `x[x]`
among them, changes. DERIVED: the port is the model's own (notes/assumptions/2.md); nothing is said of the byte drawn
when none is offered. That the other registers keep their values is D14. -/
def Obligations.RandMasksAFreshByte : Prop :=
  ∀ (x : Reg) (nn : Byte) (s : State),
    (∃ t, exec (.rand x nn) s = .next t ∧ t.reg 0 &&& ~~~nn = 0#8 ∧ (∀ r, r ≠ 0 → t.reg r = s.reg r) ∧
      (∀ b rest, s.random.offered = b :: rest → t.reg 0 = nn &&& b ∧ t.random.offered = rest) ∧
      t.random.draws = s.random.draws + 1 ∧ t.pc = s.pc + 2#16 ∧ t.status = s.status) ∧
    (∀ r : Byte, r &&& ~~~nn = 0#8 → ∃ b t, exec (.rand x nn) (s.offer [b]) = .next t ∧ t.reg 0 = r)

/-! ### Memory indirection -/

/-- `SETI` (R111): `I` is `nnn`, so at most 0xFFF; no flag, no fault. DERIVED: that `x[15]` keeps its value is D14
(notes/assumptions/10.md). -/
def Obligations.SetiLoadsTheAddress : Prop :=
  ∀ (nnn : Addr12) (s : State), ∃ t, exec (.seti nnn) s = .next t ∧ t.I.toNat = nnn.toNat ∧ t.reg 15 = s.reg 15 ∧
    t.pc = s.pc + 2#16 ∧ t.status = s.status

/-- `ADDA` (R112): `I + x[x]` modulo 65536; no flag on a carry or past 0x0FFF, and no fault.
DERIVED: that `x[15]` keeps its value is D14 (notes/assumptions/10.md). -/
def Obligations.AddaAddsToTheAddress : Prop :=
  ∀ (x : Reg) (s : State), ∃ t, exec (.adda x) s = .next t ∧
    t.I.toNat = (s.I.toNat + (s.reg x).toNat) % 65536 ∧ t.reg 15 = s.reg 15 ∧ t.pc = s.pc + 2#16 ∧ t.status = s.status

/-- `DUMP` (R113): with `I + x` inside memory, `Mem[I + k]` is `x[k]` for `k = 0 .. x`, every other byte is as before,
and `I` and the registers are unchanged. DERIVED: the bounds are D2, the unchanged `I` is D14. -/
def Obligations.DumpStoresTheRegisters : Prop :=
  ∀ (x : Reg) (s : State), s.Inv → s.I.toNat + x.val ≤ 4095 →
    ∃ t, exec (.dump x) s = .next t ∧ (∀ k : Reg, k.val ≤ x.val → t.mem.read (s.I.toNat + k.val) = s.reg k) ∧
      SameMemoryBut s.I.toNat (x.val + 1) s t ∧ t.I = s.I ∧ SameRegs s t ∧ t.pc = s.pc + 2#16 ∧ t.status = s.status

/-- `LOAD` (R114): with `I + x` inside memory, `x[k]` is `Mem[I + k]` for `k = 0 .. x`, the registers above `x`, memory
and `I` are unchanged. DERIVED: the bounds are D2, the unchanged `I` is D14. -/
def Obligations.LoadFillsTheRegisters : Prop :=
  ∀ (x : Reg) (s : State), s.I.toNat + x.val ≤ 4095 →
    ∃ t, exec (.load x) s = .next t ∧ (∀ k : Reg, k.val ≤ x.val → t.reg k = s.mem.read (s.I.toNat + k.val)) ∧
      SameRegsBut (fun k => k.val ≤ x.val) s t ∧ SameMemory s t ∧ t.I = s.I ∧ t.pc = s.pc + 2#16 ∧
      t.status = s.status

/-- `BCD` (R115): with `I + 2` inside memory, the three bytes at `I` are digits 0 to 9 whose number is `x[x]`, hundreds
first; every other byte, the registers and `I` are unchanged. DERIVED: the bounds are D2, the unchanged `I` is D14. -/
def Obligations.BcdStoresTheDigits : Prop :=
  ∀ (x : Reg) (s : State), s.Inv → s.I.toNat + 2 ≤ 4095 →
    ∃ t, exec (.bcd x) s = .next t ∧
      (s.reg x).toNat = (t.mem.read s.I.toNat).toNat * 100 + (t.mem.read (s.I.toNat + 1)).toNat * 10 +
        (t.mem.read (s.I.toNat + 2)).toNat ∧
      (t.mem.read s.I.toNat).toNat ≤ 2 ∧ (t.mem.read (s.I.toNat + 1)).toNat ≤ 9 ∧
      (t.mem.read (s.I.toNat + 2)).toNat ≤ 9 ∧
      SameMemoryBut s.I.toNat 3 s t ∧ t.I = s.I ∧ SameRegs s t ∧ t.pc = s.pc + 2#16 ∧ t.status = s.status

/-- `DUMP`, `LOAD` and `BCD` with an address above 4095 stop with cause 4 and the lowest such address, and write
nothing (R33, R110, R145). DERIVED: D2, D3. -/
def Obligations.AccessOutsideMemoryIsFatal : Prop :=
  ∀ (x : Reg) (s : State),
    (4096 ≤ s.I.toNat + x.val →
      (∃ t, exec (.dump x) s = .next t ∧
        FaultedFrom s t (some (encode (.dump x))) (.memoryBounds (max s.I.toNat 4096))) ∧
      (∃ t, exec (.load x) s = .next t ∧
        FaultedFrom s t (some (encode (.load x))) (.memoryBounds (max s.I.toNat 4096)))) ∧
    (4096 ≤ s.I.toNat + 2 →
      ∃ t, exec (.bcd x) s = .next t ∧
        FaultedFrom s t (some (encode (.bcd x))) (.memoryBounds (max s.I.toNat 4096)))

/-- A `DUMP rX`, then a `LOAD rX` after any change of the registers that leaves memory and `I`, puts `x[0..x]` back
(R114). DERIVED: D2, D14. -/
def Obligations.DumpThenLoadRestores : Prop :=
  ∀ (x : Reg) (s : State) (regs : Vector Byte 16), s.Inv → s.I.toNat + x.val ≤ 4095 →
    ∃ t u, exec (.dump x) s = .next t ∧ exec (.load x) { t with regs := regs } = .next u ∧
      ∀ k : Reg, k.val ≤ x.val → u.reg k = s.reg k

/-- A store into code is seen by the next fetch (R41): a `DUMP` onto the word after it is followed by the fetch of the
two bytes it stored. DERIVED: R41 is read from R36, and the store is D21. -/
def Obligations.StoredBytesAreFetchedNext : Prop :=
  ∀ (x : Reg) (s : State), s.Inv → 1 ≤ x.val → s.I = s.pc + 2#16 → s.I.toNat + x.val ≤ 4095 →
    s.pc.toNat ≤ 4094 → ∃ t, exec (.dump x) s = .next t ∧ fetch t = .ok (wordOfBytes (s.reg 0) (s.reg 1))

/-! ### Display -/

/-- `DRAW` (R123), with no rows or with the sprite in memory and the rectangle on the display: the pixel of sprite
column `b` and sprite row `r` is XORed with bit `7 - b` of `Mem[I + r]`, the others stay, and the flag is 1 iff a lit
pixel met a set bit. DERIVED: the bounds are D2 and D6, the other registers D14. -/
def Obligations.DrawTogglesTheSprite : Prop :=
  ∀ (x y : Reg) (d : Fin 16) (s : State),
    (d.val = 0 ∨ (s.I.toNat + d.val ≤ 4096 ∧ (s.reg x).toNat ≤ 56 ∧ (s.reg y).toNat + d.val ≤ 32)) →
    ∃ t, exec (.draw x y d) s = .next t ∧
      (∀ r < d.val, ∀ b < 8,
        Display.pixel t.disp ((s.reg y).toNat + r) ((s.reg x).toNat + b) =
          (Display.pixel s.disp ((s.reg y).toNat + r) ((s.reg x).toNat + b) ^^
            (s.mem.read (s.I.toNat + r)).getLsbD (7 - b))) ∧
      (∀ r < 32, ∀ c < 64,
        (r < (s.reg y).toNat ∨ (s.reg y).toNat + d.val ≤ r ∨ c < (s.reg x).toNat ∨ (s.reg x).toNat + 8 ≤ c) →
          Display.pixel t.disp r c = Display.pixel s.disp r c) ∧
      ((t.reg 15 = 1#8 ∧ ∃ r < 32, ∃ c < 64, Display.pixel s.disp r c = true ∧ Display.pixel t.disp r c = false) ∨
        (t.reg 15 = 0#8 ∧ ∀ r < 32, ∀ c < 64, Display.pixel s.disp r c = true → Display.pixel t.disp r c = true)) ∧
      SameRegsBut (· = 15) s t ∧ t.I = s.I ∧ t.pc = s.pc + 2#16 ∧ t.status = s.status

/-- `DRAW` with rows (R122, R144): a sprite byte above 4095 is cause 4, whatever the rectangle; else a rectangle that
leaves the display is cause 5 with `x[x]`, `x[y]` and `d`; neither writes a pixel or the flag. DERIVED: D2, D3, D6,
D7. -/
def Obligations.DrawOutsideIsFatal : Prop :=
  ∀ (x y : Reg) (d : Fin 16) (s : State), 1 ≤ d.val →
    (4096 < s.I.toNat + d.val → ∃ t, exec (.draw x y d) s = .next t ∧
      FaultedFrom s t (some (encode (.draw x y d))) (.memoryBounds (max s.I.toNat 4096))) ∧
    (s.I.toNat + d.val ≤ 4096 → (56 < (s.reg x).toNat ∨ 32 < (s.reg y).toNat + d.val) →
      ∃ t, exec (.draw x y d) s = .next t ∧
        FaultedFrom s t (some (encode (.draw x y d))) (.displayBounds (s.reg x) (s.reg y) d))

/-- Drawing a sprite twice at the same place puts the display back (R123), the coordinates being registers the flag
write does not touch. DERIVED: the bounds are D2 and D6. -/
def Obligations.DrawTwiceRestoresTheDisplay : Prop :=
  ∀ (x y : Reg) (d : Fin 16) (s : State), x ≠ 15 → y ≠ 15 →
    (d.val = 0 ∨ (s.I.toNat + d.val ≤ 4096 ∧ (s.reg x).toNat ≤ 56 ∧ (s.reg y).toNat + d.val ≤ 32)) →
    ∃ t u, exec (.draw x y d) s = .next t ∧ exec (.draw x y d) t = .next u ∧ u.disp = s.disp

/-! ### Frames (R9; DERIVED throughout: D14) -/

/-- `HALT`, `JUMP`, `JUMPV0` and the skips change `pc` only, and `HALT` the latch. -/
def Obligations.FrameOfJumpsAndSkips : Prop :=
  ∀ (i : Instr) (s t : State),
    i.mnemonic ∈ [.HALT, .JUMP, .JUMPV0, .SKEQI, .SKNEI, .SKEQ, .SKNE] → exec i s = .next t →
      SameRegs s t ∧ t.I = s.I ∧ SameStack s t ∧ SameMemory s t ∧ SameDisplay s t ∧ t.random = s.random ∧
        (i ≠ .halt → t.status = s.status)

/-- `CALL` changes `pc`, `sp` and the slot `sp` named; `RET` changes `pc` and `sp`; either may record a fault. -/
def Obligations.FrameOfCallAndRet : Prop :=
  ∀ (i : Instr) (s t : State), i.mnemonic ∈ [.CALL, .RET] → exec i s = .next t →
    SameRegs s t ∧ t.I = s.I ∧ SameMemory s t ∧ SameDisplay s t ∧ t.random = s.random ∧ SameStatusOrFault s t ∧
      (∀ k : Fin 16, (i = .ret ∨ k.val ≠ s.sp.val) → t.slot k = s.slot k)

/-- The ALU family changes its destination, the flag where the instruction has one, and `pc`; `RAND` register 0 and the
random port. -/
def Obligations.FrameOfTheAluFamily : Prop :=
  ∀ (x y : Reg) (nn : Byte) (i : Instr) (s t : State), exec i s = .next t →
    ((i ∈ [.ldi x nn, .addi x nn, .mov x y, .or x y, .and x y, .xor x y] → SameRegsBut (· = x) s t) ∧
      (i ∈ [.add x y, .sub x y, .subr x y, .shr x, .shl x] → SameRegsBut (fun r => r = x ∨ r = 15) s t) ∧
      (i = .rand x nn → SameRegsBut (· = 0) s t)) ∧
    (i ∈ [.ldi x nn, .addi x nn, .mov x y, .or x y, .and x y, .xor x y, .add x y, .sub x y, .subr x y, .shr x, .shl x,
        .rand x nn] →
      t.I = s.I ∧ SameStack s t ∧ SameMemory s t ∧ SameDisplay s t ∧ t.status = s.status ∧
        (i ≠ .rand x nn → t.random = s.random))

/-- `SETI` and `ADDA` change `I` and `pc`. -/
def Obligations.FrameOfTheAddressRegister : Prop :=
  ∀ (i : Instr) (s t : State), i.mnemonic ∈ [.SETI, .ADDA] → exec i s = .next t →
    SameRegs s t ∧ SameStack s t ∧ SameMemory s t ∧ SameDisplay s t ∧ t.random = s.random ∧ t.status = s.status

/-- `DUMP` and `BCD` change `pc` and the bytes they store, from the effective address `I` on: `x + 1` of them, and 3; or
they record a fault. -/
def Obligations.FrameOfTheStores : Prop :=
  ∀ (x : Reg) (s t : State), s.Inv →
    (exec (.dump x) s = .next t → ∀ a, s.effAddr 0 = a → SameMemoryBut a (x.val + 1) s t) ∧
    (exec (.bcd x) s = .next t → ∀ a, s.effAddr 0 = a → SameMemoryBut a 3 s t) ∧
    ((exec (.dump x) s = .next t ∨ exec (.bcd x) s = .next t) →
      SameRegs s t ∧ t.I = s.I ∧ SameStack s t ∧ SameDisplay s t ∧ t.random = s.random ∧ SameStatusOrFault s t)

/-- `LOAD` changes `x[0]` to `x[x]` and `pc`; `DRAW` the flag, `pc` and pixels of the rectangle; or they record a
fault. Neither stores. -/
def Obligations.FrameOfLoadAndDraw : Prop :=
  ∀ (x y : Reg) (d : Fin 16) (s t : State),
    (exec (.load x) s = .next t → SameRegsBut (fun k => k.val ≤ x.val) s t ∧ SameDisplay s t) ∧
    (exec (.draw x y d) s = .next t → SameRegsBut (· = 15) s t ∧
      ∀ r < 32, ∀ c < 64,
        (r < (s.reg y).toNat ∨ (s.reg y).toNat + d.val ≤ r ∨ c < (s.reg x).toNat ∨ (s.reg x).toNat + 8 ≤ c) →
          Display.pixel t.disp r c = Display.pixel s.disp r c) ∧
    ((exec (.load x) s = .next t ∨ exec (.draw x y d) s = .next t) →
      t.I = s.I ∧ SameStack s t ∧ SameMemory s t ∧ t.random = s.random ∧ SameStatusOrFault s t)

/-! ### The fields of a word -/

/-- The four nibbles and the two overlapping immediates of a word, bit by bit, as parts of one another, and by the byte
of memory each lies in (R51). -/
def Obligations.FieldsOfTheWord : Prop :=
  ∀ w : Word,
    (∀ k < 4, (fieldC w).getLsbD k = w.getLsbD (k + 12) ∧ (fieldX w).getLsbD k = w.getLsbD (k + 8) ∧
      (fieldY w).getLsbD k = w.getLsbD (k + 4) ∧ (fieldD w).getLsbD k = w.getLsbD k) ∧
    (∀ k < 12, (fieldNNN w).getLsbD k = w.getLsbD k) ∧ (∀ k < 8, (fieldNN w).getLsbD k = w.getLsbD k) ∧
    w = fieldC w ++ fieldX w ++ fieldY w ++ fieldD w ∧
    fieldNNN w = fieldX w ++ fieldY w ++ fieldD w ∧ fieldNN w = fieldY w ++ fieldD w ∧
    highByte w = fieldC w ++ fieldX w ∧ lowByte w = fieldNN w
end

