-- ==== Sys2Proof/Laws/Decode.lean ====
section
/-!
SUPPORT. The fields of a word and the words of the formats: cutting a word into nibbles and putting one together undo
each other.
-/

namespace Sys2Proof

@[simp] theorem nibbleIndex_indexNibble (r : Fin 16) : nibbleIndex (indexNibble r) = r := rfl
@[simp] theorem indexNibble_nibbleIndex (b : Nibble) : indexNibble (nibbleIndex b) = b := rfl

/-! ### As numbers -/

theorem fieldC_toNat (w : Word) : (fieldC w).toNat = w.toNat / 4096 % 16 := by
  simp [fieldC, Nat.shiftRight_eq_div_pow]
theorem fieldX_toNat (w : Word) : (fieldX w).toNat = w.toNat / 256 % 16 := by
  simp [fieldX, Nat.shiftRight_eq_div_pow]
theorem fieldY_toNat (w : Word) : (fieldY w).toNat = w.toNat / 16 % 16 := by
  simp [fieldY, Nat.shiftRight_eq_div_pow]
theorem fieldD_toNat (w : Word) : (fieldD w).toNat = w.toNat % 16 := by simp [fieldD]
theorem fieldNNN_toNat (w : Word) : (fieldNNN w).toNat = w.toNat % 4096 := by simp [fieldNNN]
theorem fieldNN_toNat (w : Word) : (fieldNN w).toNat = w.toNat % 256 := by simp [fieldNN]

/-- Two fields side by side, as numbers. -/
theorem append_toNat {m n : Nat} (a : BitVec m) (b : BitVec n) : (a ++ b).toNat = a.toNat * 2 ^ n + b.toNat := by
  rw [BitVec.toNat_append, ← Nat.shiftLeft_add_eq_or_of_lt b.isLt, Nat.shiftLeft_eq]

theorem wordOf_toNat (c x y d : Nibble) :
    (wordOf c x y d).toNat = c.toNat * 4096 + x.toNat * 256 + y.toNat * 16 + d.toNat := by
  have h : (wordOf c x y d).toNat = (c ++ x ++ y ++ d).toNat := rfl
  rw [h, append_toNat, append_toNat, append_toNat]; omega

theorem wordOfN_toNat (c : Nibble) (nnn : Addr12) : (wordOfN c nnn).toNat = c.toNat * 4096 + nnn.toNat := by
  have h : (wordOfN c nnn).toNat = (c ++ nnn).toNat := rfl
  rw [h, append_toNat]; omega

theorem wordOfXN_toNat (c x : Nibble) (nn : Byte) :
    (wordOfXN c x nn).toNat = c.toNat * 4096 + x.toNat * 256 + nn.toNat := by
  have h : (wordOfXN c x nn).toNat = (c ++ x ++ nn).toNat := rfl
  rw [h, append_toNat, append_toNat]; omega

theorem wordOfBytes_toNat (hi lo : Byte) : (wordOfBytes hi lo).toNat = hi.toNat * 256 + lo.toNat := by
  have h : (wordOfBytes hi lo).toNat = (hi ++ lo).toNat := rfl
  rw [h, append_toNat]; omega

/-! ### The fields of a word put together (R51, R53) -/

@[simp] theorem fieldC_wordOf (c x y d : Nibble) : fieldC (wordOf c x y d) = c := by
  apply BitVec.eq_of_toNat_eq; rw [fieldC_toNat, wordOf_toNat]; omega
@[simp] theorem fieldX_wordOf (c x y d : Nibble) : fieldX (wordOf c x y d) = x := by
  apply BitVec.eq_of_toNat_eq; rw [fieldX_toNat, wordOf_toNat]; omega
@[simp] theorem fieldY_wordOf (c x y d : Nibble) : fieldY (wordOf c x y d) = y := by
  apply BitVec.eq_of_toNat_eq; rw [fieldY_toNat, wordOf_toNat]; omega
@[simp] theorem fieldD_wordOf (c x y d : Nibble) : fieldD (wordOf c x y d) = d := by
  apply BitVec.eq_of_toNat_eq; rw [fieldD_toNat, wordOf_toNat]; omega
@[simp] theorem fieldC_wordOfN (c : Nibble) (nnn : Addr12) : fieldC (wordOfN c nnn) = c := by
  apply BitVec.eq_of_toNat_eq; rw [fieldC_toNat, wordOfN_toNat]; omega
@[simp] theorem fieldNNN_wordOfN (c : Nibble) (nnn : Addr12) : fieldNNN (wordOfN c nnn) = nnn := by
  apply BitVec.eq_of_toNat_eq; rw [fieldNNN_toNat, wordOfN_toNat]; omega
@[simp] theorem fieldC_wordOfXN (c x : Nibble) (nn : Byte) : fieldC (wordOfXN c x nn) = c := by
  apply BitVec.eq_of_toNat_eq; rw [fieldC_toNat, wordOfXN_toNat]; omega
@[simp] theorem fieldX_wordOfXN (c x : Nibble) (nn : Byte) : fieldX (wordOfXN c x nn) = x := by
  apply BitVec.eq_of_toNat_eq; rw [fieldX_toNat, wordOfXN_toNat]; omega
@[simp] theorem fieldNN_wordOfXN (c x : Nibble) (nn : Byte) : fieldNN (wordOfXN c x nn) = nn := by
  apply BitVec.eq_of_toNat_eq; rw [fieldNN_toNat, wordOfXN_toNat]; omega

/-- `nn` is the nibbles `y` and `d` side by side (R51). -/
theorem fieldNN_wordOf (c x y d : Nibble) : (fieldNN (wordOf c x y d)).toNat = y.toNat * 16 + d.toNat := by
  rw [fieldNN_toNat, wordOf_toNat]; omega

/-- The same as a byte: how a fixed low byte of the `F` group is read (R57). -/
theorem fieldNN_wordOf_eq (c x y d : Nibble) :
    fieldNN (wordOf c x y d) = BitVec.ofNat 8 (y.toNat * 16 + d.toNat) := by
  apply BitVec.eq_of_toNat_eq; rw [fieldNN_wordOf, BitVec.toNat_ofNat]; omega

/-- A word is its four nibbles side by side (R51). -/
theorem wordOf_fields (w : Word) : wordOf (fieldC w) (fieldX w) (fieldY w) (fieldD w) = w := by
  apply BitVec.eq_of_toNat_eq
  rw [wordOf_toNat, fieldC_toNat, fieldX_toNat, fieldY_toNat, fieldD_toNat]; omega

/-- A word is `c` and `nnn` side by side. -/
theorem wordOfN_fields (w : Word) : wordOfN (fieldC w) (fieldNNN w) = w := by
  apply BitVec.eq_of_toNat_eq; rw [wordOfN_toNat, fieldC_toNat, fieldNNN_toNat]; omega

/-- A word is `c`, `x` and `nn` side by side. -/
theorem wordOfXN_fields (w : Word) : wordOfXN (fieldC w) (fieldX w) (fieldNN w) = w := by
  apply BitVec.eq_of_toNat_eq; rw [wordOfXN_toNat, fieldC_toNat, fieldX_toNat, fieldNN_toNat]; omega

/-! ### Masks, nibble by nibble (R53) -/

/-- Two words in nibbles, ANDed. -/
theorem wordOf_and (c x y d c' x' y' d' : Nibble) :
    wordOf c x y d &&& wordOf c' x' y' d' = wordOf (c &&& c') (x &&& x') (y &&& y') (d &&& d') := by
  show (c ++ x ++ y ++ d) &&& (c' ++ x' ++ y' ++ d') = (c &&& c') ++ (x &&& x') ++ (y &&& y') ++ (d &&& d')
  simp only [BitVec.and_append]

/-- Format N as four nibbles. -/
theorem wordOfN_eq (c : Nibble) (nnn : Addr12) :
    wordOfN c nnn = wordOf c (nnn.extractLsb' 8 4) (nnn.extractLsb' 4 4) (nnn.extractLsb' 0 4) := by
  apply BitVec.eq_of_toNat_eq
  rw [wordOfN_toNat, wordOf_toNat]
  simp [Nat.shiftRight_eq_div_pow]; omega

/-- Format XN as four nibbles. -/
theorem wordOfXN_eq (c x : Nibble) (nn : Byte) :
    wordOfXN c x nn = wordOf c x (nn.extractLsb' 4 4) (nn.extractLsb' 0 4) := by
  apply BitVec.eq_of_toNat_eq
  rw [wordOfXN_toNat, wordOf_toNat]
  simp [Nat.shiftRight_eq_div_pow]; omega

/-- A row selects the words whose nibbles agree with it under its mask. -/
theorem selects_wordOf (m : Mnemonic) (c x y d mc mx my md rc rx ry rd : Nibble) :
    OpcodeRow.selects ⟨m, wordOf rc rx ry rd, wordOf mc mx my md⟩ (wordOf c x y d) = true ↔
      c &&& mc = rc ∧ x &&& mx = rx ∧ y &&& my = ry ∧ d &&& md = rd := by
  simp only [OpcodeRow.selects, wordOf_and, beq_iff_eq]
  constructor
  · intro h
    exact ⟨by simpa using congrArg fieldC h, by simpa using congrArg fieldX h, by simpa using congrArg fieldY h,
      by simpa using congrArg fieldD h⟩
  · rintro ⟨rfl, rfl, rfl, rfl⟩; rfl

/-- A word is its two bytes side by side, and two bytes side by side are the bytes of their word (R31). -/
@[simp] theorem wordOfBytes_bytes (w : Word) : wordOfBytes (highByte w) (lowByte w) = w := by
  apply BitVec.eq_of_toNat_eq
  rw [wordOfBytes_toNat]
  simp [highByte, lowByte, Nat.shiftRight_eq_div_pow]; omega

/-- The table's word in the table's numbering, decoded, is the word decoded. -/
theorem decodeTableWord_eq (nbits w : Nat) :
    decodeTableWord nbits w = (decodeWord (tableWord nbits w)).toOption := by
  simp only [decodeTableWord, decode, wordOfBytes_bytes]
  cases decodeWord (tableWord nbits w) <;> rfl

end Sys2Proof
end

