-- ==== Sys2Proof/Laws/Display.lean ====
section
/-!
SUPPORT. The laws of the display: a pixel after a pixel is written, and everything the loops of `DRAW` do, pixel by pixel
and for the collision.
-/

namespace Sys2Proof.Machine

/-- A pixel after a write of a pixel that is on the display. -/
theorem Display.pixel_setPixel (d : Display) (r c r' c' : Nat) (v : Bool) (hr : r < 32) (hc : c < 64) :
    Display.pixel (Display.setPixel d r c v) r' c' = if r' = r ∧ c' = c then v else Display.pixel d r' c' := by
  unfold Display.setPixel Display.pixel
  rw [Vector.getElem?_eq_getElem hr]
  simp only [Vector.getElem?_setIfInBounds]
  by_cases h : r = r'
  · subst h
    by_cases h' : c = c'
    · subst h'; simp [hr, hc]
    · simp [hr, h', Ne.symm h']
  · simp [h, Ne.symm h]

/-- One pixel toggled: that pixel is XORed with the bit, the others stay (R123). -/
theorem Drawing.pixel_toggle (p : Drawing) (r c r' c' : Nat) (bit : Bool) (hr : r < 32) (hc : c < 64) :
    Display.pixel (p.toggle r c bit).disp r' c' =
      (Display.pixel p.disp r' c' ^^ (decide (r' = r ∧ c' = c) && bit)) := by
  simp only [Drawing.toggle, Display.pixel_setPixel _ _ _ _ _ _ hr hc]
  by_cases h : r' = r ∧ c' = c
  · obtain ⟨rfl, rfl⟩ := h; simp
  · simp [h]

/-- The pixels after the first `n` columns of a sprite row: those of the row are XORed with the sprite's bits. -/
theorem drawColumns_pixel (sprite : Byte) (r column : Nat) (p : Drawing) (n r' c' : Nat) (hr : r < 32)
    (hc : column + n ≤ 64) :
    Display.pixel (drawColumns sprite r column p n).disp r' c' =
      (Display.pixel p.disp r' c' ^^
        (decide (r' = r ∧ column ≤ c' ∧ c' < column + n) && spriteBit sprite (c' - column))) := by
  induction n with
  | zero =>
    have e : ¬ (r' = r ∧ column ≤ c' ∧ c' < column + 0) := by omega
    simp only [drawColumns, e, decide_false, Bool.false_and, Bool.xor_false]
  | succ n ih =>
    rw [drawColumns, Drawing.pixel_toggle _ _ _ _ _ _ hr (by omega), ih (by omega), Bool.xor_assoc]
    congr 1
    by_cases h : r' = r ∧ c' = column + n
    · obtain ⟨rfl, rfl⟩ := h
      have e : column + n - column = n := by omega
      simp [e]
    · have e : (r' = r ∧ column ≤ c' ∧ c' < column + n) ↔ (r' = r ∧ column ≤ c' ∧ c' < column + (n + 1)) := by omega
      simp [h, e]

/-- The collision after the first `n` columns: one before, or a set bit on a pixel that was lit. -/
theorem drawColumns_collision (sprite : Byte) (r column : Nat) (p : Drawing) (n : Nat) (hr : r < 32)
    (hc : column + n ≤ 64) :
    (drawColumns sprite r column p n).collision = true ↔
      p.collision = true ∨
        ∃ b < n, Display.pixel p.disp r (column + b) = true ∧ spriteBit sprite b = true := by
  induction n with
  | zero => simp [drawColumns]
  | succ n ih =>
    have hold : Display.pixel (drawColumns sprite r column p n).disp r (column + n) =
        Display.pixel p.disp r (column + n) := by
      rw [drawColumns_pixel _ _ _ _ _ _ _ hr (by omega)]; simp
    simp only [drawColumns, Drawing.toggle, Bool.or_eq_true, Bool.and_eq_true, hold, ih (by omega)]
    constructor
    · rintro ((h | ⟨b, hb, h⟩) | h)
      · exact .inl h
      · exact .inr ⟨b, by omega, h⟩
      · exact .inr ⟨n, by omega, h⟩
    · rintro (h | ⟨b, hb, h⟩)
      · exact .inl (.inl h)
      · by_cases e : b = n
        · subst e; exact .inr h
        · exact .inl (.inr ⟨b, by omega, h⟩)

/-- The pixels after the first `n` rows of a sprite: those of the rectangle are XORed with the sprite's bits (R123). -/
theorem drawRows_pixel (m : Memory) (base column row : Nat) (p : Drawing) (n r' c' : Nat) (hr : row + n ≤ 32)
    (hc : column + 8 ≤ 64) :
    Display.pixel (drawRows m base column row p n).disp r' c' =
      (Display.pixel p.disp r' c' ^^
        (decide (row ≤ r' ∧ r' < row + n ∧ column ≤ c' ∧ c' < column + 8) &&
          spriteBit (m.read (base + (r' - row))) (c' - column))) := by
  induction n with
  | zero =>
    have e : ¬ (row ≤ r' ∧ r' < row + 0 ∧ column ≤ c' ∧ c' < column + 8) := by omega
    simp only [drawRows, e, decide_false, Bool.false_and, Bool.xor_false]
  | succ n ih =>
    rw [drawRows, drawColumns_pixel _ _ _ _ _ _ _ (by omega) hc, ih (by omega), Bool.xor_assoc]
    congr 1
    by_cases h : r' = row + n
    · subst h
      have e : row + n - row = n := by omega
      simp [e]
    · have e : (row ≤ r' ∧ r' < row + n ∧ column ≤ c' ∧ c' < column + 8) ↔
          (row ≤ r' ∧ r' < row + (n + 1) ∧ column ≤ c' ∧ c' < column + 8) := by omega
      simp [h, e]

/-- The collision after the first `n` rows: one before, or a set bit on a pixel that was lit before the draw (R123). -/
theorem drawRows_collision (m : Memory) (base column row : Nat) (p : Drawing) (n : Nat) (hr : row + n ≤ 32)
    (hc : column + 8 ≤ 64) :
    (drawRows m base column row p n).collision = true ↔
      p.collision = true ∨
        ∃ r < n, ∃ b < 8, Display.pixel p.disp (row + r) (column + b) = true ∧
          spriteBit (m.read (base + r)) b = true := by
  induction n with
  | zero => simp [drawRows]
  | succ n ih =>
    have hold : ∀ b, Display.pixel (drawRows m base column row p n).disp (row + n) (column + b) =
        Display.pixel p.disp (row + n) (column + b) := by
      intro b; rw [drawRows_pixel _ _ _ _ _ _ _ _ (by omega) hc]; simp
    rw [drawRows, drawColumns_collision _ _ _ _ _ (by omega) hc, ih (by omega)]
    simp only [hold]
    constructor
    · rintro ((h | ⟨r, hr', h⟩) | h)
      · exact .inl h
      · exact .inr ⟨r, by omega, h⟩
      · exact .inr ⟨n, by omega, h⟩
    · rintro (h | ⟨r, hr', h⟩)
      · exact .inl (.inl h)
      · by_cases e : r = n
        · subst e; exact .inr h
        · exact .inl (.inr ⟨r, by omega, h⟩)

/-- Two displays with the same pixels are the same display. -/
theorem Display.ext_pixel (d e : Display)
    (h : ∀ r < 32, ∀ c < 64, Display.pixel d r c = Display.pixel e r c) : d = e := by
  refine Vector.ext fun r hr => Vector.ext fun c hc => ?_
  simpa [Display.pixel, hr, hc] using h r hr c hc

end Sys2Proof.Machine
end

