-- ==== Sys2Proof/Laws/Memory.lean ====
section
/-!
SUPPORT. The laws of memory: a read after a write, the canonical form and its preservation, stores of several bytes, the
bounds rule, and the register file after `LOAD`'s loop.
-/

namespace Sys2Proof.Machine

/-! ### The canonical form, unpacked -/

/-- The canonical form of a list with a first entry. -/
theorem Memory.wf_cons (a : Nat) (v : Byte) (rest : Memory) :
    Memory.wf ((a, v) :: rest) = true ↔
      a < Config.memSize ∧ v ≠ Memory.unlisted a ∧ (∀ c ∈ rest, a < c.1) ∧ Memory.wf rest = true := by
  simp [Memory.wf, and_assoc]

/-- An address below every listed one reads as it does when unlisted. -/
theorem Memory.read_of_below (m : Memory) (a : Nat) (h : ∀ c ∈ m, a < c.1) : m.read a = Memory.unlisted a := by
  induction m with
  | nil => rfl
  | cons c rest ih =>
    obtain ⟨b, u⟩ := c
    have hb : a < b := h (b, u) (by simp)
    simp only [Memory.read, if_neg (Nat.ne_of_lt hb)]
    exact ih fun c hc => h c (by simp [hc])

/-- Reading through `Memory.entry`, put before a list that lies above it. -/
theorem Memory.read_entry (a b : Nat) (v : Byte) (rest : Memory) (h : ∀ c ∈ rest, a < c.1) :
    (Memory.entry a v rest).read b = if b = a then v else rest.read b := by
  unfold Memory.entry
  by_cases hv : v = Memory.unlisted a
  · rw [if_pos hv]
    by_cases hb : b = a
    · subst hb; rw [if_pos rfl, Memory.read_of_below rest b h, hv]
    · rw [if_neg hb]
  · simp [if_neg hv, Memory.read]

/-- `Memory.entry` keeps the canonical form. -/
theorem Memory.wf_entry (a : Nat) (v : Byte) (rest : Memory) (ha : a < Config.memSize) (h : ∀ c ∈ rest, a < c.1)
    (hw : rest.wf = true) : (Memory.entry a v rest).wf = true := by
  unfold Memory.entry
  by_cases hv : v = Memory.unlisted a
  · simpa [if_pos hv] using hw
  · rw [if_neg hv, Memory.wf_cons]; exact ⟨ha, hv, h, hw⟩

/-- What `Memory.entry` lists. -/
theorem Memory.mem_entry (a : Nat) (v : Byte) (rest : Memory) (c : Host.Cell) (h : c ∈ Memory.entry a v rest) :
    c.1 = a ∨ c ∈ rest := by
  unfold Memory.entry at h
  split at h
  · exact .inr h
  · rcases List.mem_cons.mp h with rfl | h
    · exact .inl rfl
    · exact .inr h

/-- What a write lists: the address written, and what was listed. -/
theorem Memory.mem_write (m : Memory) (a : Nat) (v : Byte) (c : Host.Cell) (h : c ∈ m.write a v) :
    c.1 = a ∨ c ∈ m := by
  induction m with
  | nil => exact Memory.mem_entry a v [] c h
  | cons e rest ih =>
    obtain ⟨b, u⟩ := e
    unfold Memory.write at h
    split at h
    · exact Memory.mem_entry a v _ c h
    · split at h
      · rcases Memory.mem_entry a v _ c h with h | h
        · exact .inl h
        · exact .inr (by simp [h])
      · rcases List.mem_cons.mp h with rfl | h
        · exact .inr (by simp)
        · rcases ih h with h | h
          · exact .inl h
          · exact .inr (by simp [h])

/-- A write keeps the canonical form. -/
theorem Memory.wf_write (m : Memory) (a : Nat) (v : Byte) (ha : a < Config.memSize) (hw : m.wf = true) :
    (m.write a v).wf = true := by
  induction m with
  | nil => exact Memory.wf_entry a v [] ha (by simp) rfl
  | cons e rest ih =>
    obtain ⟨b, u⟩ := e
    obtain ⟨hb, hu, habove, hrest⟩ := (Memory.wf_cons b u rest).mp hw
    unfold Memory.write
    split
    · rename_i hab
      refine Memory.wf_entry a v _ ha ?_ hw
      intro c hc
      rcases List.mem_cons.mp hc with rfl | hc
      · exact hab
      · exact Nat.lt_trans hab (habove c hc)
    · split
      · rename_i _ hab
        subst hab
        exact Memory.wf_entry a v rest ha habove hrest
      · rename_i hnlt hne
        refine (Memory.wf_cons b u _).mpr ⟨hb, hu, ?_, ih hrest⟩
        intro c hc
        rcases Memory.mem_write rest a v c hc with h | h
        · rw [h]; omega
        · exact habove c h

/-- A read after a write. -/
theorem Memory.read_write (m : Memory) (a b : Nat) (v : Byte) (hw : m.wf = true) :
    (m.write a v).read b = if b = a then v else m.read b := by
  induction m with
  | nil => exact Memory.read_entry a b v [] (by simp)
  | cons e rest ih =>
    obtain ⟨b', u⟩ := e
    obtain ⟨_, _, habove, hrest⟩ := (Memory.wf_cons b' u rest).mp hw
    unfold Memory.write
    split
    · rename_i hab
      refine Memory.read_entry a b v _ ?_
      intro c hc
      rcases List.mem_cons.mp hc with rfl | hc
      · exact hab
      · exact Nat.lt_trans hab (habove c hc)
    · split
      · rename_i _ hab
        subst hab
        rw [Memory.read_entry a b v rest habove]
        by_cases hb : b = a <;> simp [Memory.read, hb]
      · rename_i hnlt hne
        simp only [Memory.read, ih hrest]
        by_cases hb : b = b'
        · subst hb; simp [Ne.symm hne]
        · simp [hb]

/-- A store of several bytes keeps the canonical form. -/
theorem Memory.wf_store (bytes : List Byte) (m : Memory) (base : Nat) (h : base + bytes.length ≤ Config.memSize)
    (hw : m.wf = true) : (m.store base bytes).wf = true := by
  induction bytes generalizing m base with
  | nil => exact hw
  | cons v vs ih =>
    simp only [List.length_cons] at h
    exact ih _ _ (by omega) (Memory.wf_write m base v (by omega) hw)

/-- Everything a store of several bytes does: the byte of each address it covers, and no other. -/
theorem Memory.read_store (bytes : List Byte) (m : Memory) (base a : Nat)
    (h : base + bytes.length ≤ Config.memSize) (hw : m.wf = true) :
    (m.store base bytes).read a =
      if base ≤ a ∧ a < base + bytes.length then bytes.getD (a - base) 0#8 else m.read a := by
  induction bytes generalizing m base with
  | nil => simp only [Memory.store, List.length_nil]; rw [if_neg (by omega)]
  | cons v vs ih =>
    simp only [List.length_cons] at h
    simp only [Memory.store]
    rw [ih _ _ (by omega) (Memory.wf_write m base v (by omega) hw), Memory.read_write m base a v hw]
    simp only [List.length_cons]
    by_cases ha : a = base
    · subst ha
      rw [if_neg (by omega), if_pos rfl, if_pos (by omega)]
      simp
    · rw [if_neg ha]
      by_cases hin : base + 1 ≤ a ∧ a < base + 1 + vs.length
      · rw [if_pos hin, if_pos (by omega)]
        obtain ⟨k, hk⟩ : ∃ k, a - base = k + 1 := ⟨a - base - 1, by omega⟩
        have hk' : a - (base + 1) = k := by omega
        rw [hk, hk', List.getD_cons_succ]
      · rw [if_neg hin, if_neg (by omega)]

/-! ### The bounds rule -/

/-- The bounds rule finds nothing exactly when the access is empty or ends inside memory (R33). -/
theorem lowestOutside_eq_none (base n : Nat) :
    lowestOutside base n = none ↔ n = 0 ∨ base + n ≤ Config.memSize := by
  unfold lowestOutside Config.memSize
  split <;> simp <;> omega

/-- What the bounds rule reports: the lowest address of the access that is above 4095 (R33, R142). -/
theorem lowestOutside_eq_some (base n a : Nat) :
    lowestOutside base n = some a ↔ 1 ≤ n ∧ Config.memSize < base + n ∧ a = max base Config.memSize := by
  unfold lowestOutside Config.memSize
  split <;> simp <;> omega

/-! ### LOAD's loop -/

/-- The registers after `LOAD`'s loop: the first `n` from memory, the others as they were (R114). -/
theorem loadRegs_get (m : Memory) (base : Nat) (regs : Vector Byte 16) (n : Nat) (r : Reg) :
    (loadRegs m base regs n)[r] = if r.val < n then m.read (base + r.val) else regs[r] := by
  induction n with
  | zero => simp [loadRegs]
  | succ n ih =>
    simp only [loadRegs, Fin.getElem_fin, Vector.getElem_setIfInBounds] at ih ⊢
    by_cases h : n = r.val
    · subst h; simp
    · rw [if_neg h, ih]
      by_cases h' : r.val < n
      · rw [if_pos h', if_pos (by omega)]
      · rw [if_neg h', if_neg (by omega)]

/-- `DUMP` stores `x + 1` bytes. -/
@[simp] theorem State.firstRegs_length (s : State) (x : Reg) : (s.firstRegs (x.val + 1)).length = x.val + 1 := by
  simp [State.firstRegs]

/-- The `k`-th byte `DUMP` stores is `x[k]`. -/
theorem State.firstRegs_getD (s : State) (x : Reg) (k : Nat) (h : k ≤ x.val) :
    (s.firstRegs (x.val + 1)).getD k 0#8 = s.reg ⟨k, by have := x.isLt; omega⟩ := by
  have hx := x.isLt
  simp [State.firstRegs, State.reg, List.getD, show k < x.val + 1 by omega]

end Sys2Proof.Machine
end

