-- ==== Sys2Proof/Laws/State.lean ====
section
/-!
SUPPORT. The state's updates, field by field: what each shared operation writes and what it leaves.
-/

namespace Sys2Proof.Machine

/-! ### setReg -/

@[simp] theorem State.setReg_regs (s : State) (r : Reg) (v : Byte) : (s.setReg r v).regs = s.regs.set r v := rfl
@[simp] theorem State.setReg_pc (s : State) (r : Reg) (v : Byte) : (s.setReg r v).pc = s.pc := rfl
@[simp] theorem State.setReg_I (s : State) (r : Reg) (v : Byte) : (s.setReg r v).I = s.I := rfl
@[simp] theorem State.setReg_stack (s : State) (r : Reg) (v : Byte) : (s.setReg r v).stack = s.stack := rfl
@[simp] theorem State.setReg_sp (s : State) (r : Reg) (v : Byte) : (s.setReg r v).sp = s.sp := rfl
@[simp] theorem State.setReg_mem (s : State) (r : Reg) (v : Byte) : (s.setReg r v).mem = s.mem := rfl
@[simp] theorem State.setReg_disp (s : State) (r : Reg) (v : Byte) : (s.setReg r v).disp = s.disp := rfl
@[simp] theorem State.setReg_status (s : State) (r : Reg) (v : Byte) : (s.setReg r v).status = s.status := rfl
@[simp] theorem State.setReg_random (s : State) (r : Reg) (v : Byte) : (s.setReg r v).random = s.random := rfl

/-! ### advance -/

@[simp] theorem State.advance_regs (s : State) : s.advance.regs = s.regs := rfl
@[simp] theorem State.advance_pc (s : State) : s.advance.pc = s.pc + 2#16 := rfl
@[simp] theorem State.advance_I (s : State) : s.advance.I = s.I := rfl
@[simp] theorem State.advance_stack (s : State) : s.advance.stack = s.stack := rfl
@[simp] theorem State.advance_sp (s : State) : s.advance.sp = s.sp := rfl
@[simp] theorem State.advance_mem (s : State) : s.advance.mem = s.mem := rfl
@[simp] theorem State.advance_disp (s : State) : s.advance.disp = s.disp := rfl
@[simp] theorem State.advance_status (s : State) : s.advance.status = s.status := rfl
@[simp] theorem State.advance_random (s : State) : s.advance.random = s.random := rfl

/-! ### jumpTo -/

@[simp] theorem State.jumpTo_regs (s : State) (target : Word) : (s.jumpTo target).regs = s.regs := rfl
@[simp] theorem State.jumpTo_pc (s : State) (target : Word) : (s.jumpTo target).pc = target := rfl
@[simp] theorem State.jumpTo_I (s : State) (target : Word) : (s.jumpTo target).I = s.I := rfl
@[simp] theorem State.jumpTo_stack (s : State) (target : Word) : (s.jumpTo target).stack = s.stack := rfl
@[simp] theorem State.jumpTo_sp (s : State) (target : Word) : (s.jumpTo target).sp = s.sp := rfl
@[simp] theorem State.jumpTo_mem (s : State) (target : Word) : (s.jumpTo target).mem = s.mem := rfl
@[simp] theorem State.jumpTo_disp (s : State) (target : Word) : (s.jumpTo target).disp = s.disp := rfl
@[simp] theorem State.jumpTo_status (s : State) (target : Word) : (s.jumpTo target).status = s.status := rfl
@[simp] theorem State.jumpTo_random (s : State) (target : Word) : (s.jumpTo target).random = s.random := rfl

/-! ### raise -/

@[simp] theorem State.raise_regs (s : State) (word : Option Word) (cause : FatalCause) :
    (s.raise word cause).regs = s.regs := rfl
@[simp] theorem State.raise_pc (s : State) (word : Option Word) (cause : FatalCause) :
    (s.raise word cause).pc = s.pc := rfl
@[simp] theorem State.raise_I (s : State) (word : Option Word) (cause : FatalCause) :
    (s.raise word cause).I = s.I := rfl
@[simp] theorem State.raise_stack (s : State) (word : Option Word) (cause : FatalCause) :
    (s.raise word cause).stack = s.stack := rfl
@[simp] theorem State.raise_sp (s : State) (word : Option Word) (cause : FatalCause) :
    (s.raise word cause).sp = s.sp := rfl
@[simp] theorem State.raise_mem (s : State) (word : Option Word) (cause : FatalCause) :
    (s.raise word cause).mem = s.mem := rfl
@[simp] theorem State.raise_disp (s : State) (word : Option Word) (cause : FatalCause) :
    (s.raise word cause).disp = s.disp := rfl
@[simp] theorem State.raise_status (s : State) (word : Option Word) (cause : FatalCause) :
    (s.raise word cause).status = .faulted { a0 := s.pc, word := word, cause := cause } := rfl
@[simp] theorem State.raise_random (s : State) (word : Option Word) (cause : FatalCause) :
    (s.raise word cause).random = s.random := rfl

/-! ### halt -/

@[simp] theorem State.halt_regs (s : State) : s.halt.regs = s.regs := rfl
@[simp] theorem State.halt_pc (s : State) : s.halt.pc = s.pc := rfl
@[simp] theorem State.halt_I (s : State) : s.halt.I = s.I := rfl
@[simp] theorem State.halt_stack (s : State) : s.halt.stack = s.stack := rfl
@[simp] theorem State.halt_sp (s : State) : s.halt.sp = s.sp := rfl
@[simp] theorem State.halt_mem (s : State) : s.halt.mem = s.mem := rfl
@[simp] theorem State.halt_disp (s : State) : s.halt.disp = s.disp := rfl
@[simp] theorem State.halt_status (s : State) : s.halt.status = .halted := rfl
@[simp] theorem State.halt_random (s : State) : s.halt.random = s.random := rfl

/-! ### finish -/

@[simp] theorem State.finish_regs (s : State) (r : Reg) (v : Byte) : (s.finish r v).regs = s.regs.set r v := rfl
@[simp] theorem State.finish_pc (s : State) (r : Reg) (v : Byte) : (s.finish r v).pc = s.pc + 2#16 := rfl
@[simp] theorem State.finish_I (s : State) (r : Reg) (v : Byte) : (s.finish r v).I = s.I := rfl
@[simp] theorem State.finish_stack (s : State) (r : Reg) (v : Byte) : (s.finish r v).stack = s.stack := rfl
@[simp] theorem State.finish_sp (s : State) (r : Reg) (v : Byte) : (s.finish r v).sp = s.sp := rfl
@[simp] theorem State.finish_mem (s : State) (r : Reg) (v : Byte) : (s.finish r v).mem = s.mem := rfl
@[simp] theorem State.finish_disp (s : State) (r : Reg) (v : Byte) : (s.finish r v).disp = s.disp := rfl
@[simp] theorem State.finish_status (s : State) (r : Reg) (v : Byte) : (s.finish r v).status = s.status := rfl
@[simp] theorem State.finish_random (s : State) (r : Reg) (v : Byte) : (s.finish r v).random = s.random := rfl

/-! ### finishWithFlag -/

@[simp] theorem State.finishWithFlag_regs (s : State) (r : Reg) (v flag : Byte) :
    (s.finishWithFlag r v flag).regs = (s.regs.set r v).set flagReg flag := rfl
@[simp] theorem State.finishWithFlag_pc (s : State) (r : Reg) (v flag : Byte) :
    (s.finishWithFlag r v flag).pc = s.pc + 2#16 := rfl
@[simp] theorem State.finishWithFlag_I (s : State) (r : Reg) (v flag : Byte) :
    (s.finishWithFlag r v flag).I = s.I := rfl
@[simp] theorem State.finishWithFlag_stack (s : State) (r : Reg) (v flag : Byte) :
    (s.finishWithFlag r v flag).stack = s.stack := rfl
@[simp] theorem State.finishWithFlag_sp (s : State) (r : Reg) (v flag : Byte) :
    (s.finishWithFlag r v flag).sp = s.sp := rfl
@[simp] theorem State.finishWithFlag_mem (s : State) (r : Reg) (v flag : Byte) :
    (s.finishWithFlag r v flag).mem = s.mem := rfl
@[simp] theorem State.finishWithFlag_disp (s : State) (r : Reg) (v flag : Byte) :
    (s.finishWithFlag r v flag).disp = s.disp := rfl
@[simp] theorem State.finishWithFlag_status (s : State) (r : Reg) (v flag : Byte) :
    (s.finishWithFlag r v flag).status = s.status := rfl
@[simp] theorem State.finishWithFlag_random (s : State) (r : Reg) (v flag : Byte) :
    (s.finishWithFlag r v flag).random = s.random := rfl

/-! ### offer -/

@[simp] theorem State.offer_regs (s : State) (bytes : List Byte) : (s.offer bytes).regs = s.regs := rfl
@[simp] theorem State.offer_pc (s : State) (bytes : List Byte) : (s.offer bytes).pc = s.pc := rfl
@[simp] theorem State.offer_I (s : State) (bytes : List Byte) : (s.offer bytes).I = s.I := rfl
@[simp] theorem State.offer_stack (s : State) (bytes : List Byte) : (s.offer bytes).stack = s.stack := rfl
@[simp] theorem State.offer_sp (s : State) (bytes : List Byte) : (s.offer bytes).sp = s.sp := rfl
@[simp] theorem State.offer_mem (s : State) (bytes : List Byte) : (s.offer bytes).mem = s.mem := rfl
@[simp] theorem State.offer_disp (s : State) (bytes : List Byte) : (s.offer bytes).disp = s.disp := rfl
@[simp] theorem State.offer_status (s : State) (bytes : List Byte) : (s.offer bytes).status = s.status := rfl
@[simp] theorem State.offer_random (s : State) (bytes : List Byte) :
    (s.offer bytes).random = { s.random with offered := bytes } := rfl

/-! ### withFetchWord -/

@[simp] theorem State.withFetchWord_regs (s : State) (nbits w : Nat) : (s.withFetchWord nbits w).regs = s.regs := rfl
@[simp] theorem State.withFetchWord_pc (s : State) (nbits w : Nat) : (s.withFetchWord nbits w).pc = s.pc := rfl
@[simp] theorem State.withFetchWord_I (s : State) (nbits w : Nat) : (s.withFetchWord nbits w).I = s.I := rfl
@[simp] theorem State.withFetchWord_stack (s : State) (nbits w : Nat) :
    (s.withFetchWord nbits w).stack = s.stack := rfl
@[simp] theorem State.withFetchWord_sp (s : State) (nbits w : Nat) : (s.withFetchWord nbits w).sp = s.sp := rfl
@[simp] theorem State.withFetchWord_mem (s : State) (nbits w : Nat) :
    (s.withFetchWord nbits w).mem = s.mem.store s.pc.toNat [highByte (tableWord nbits w), lowByte (tableWord nbits w)] := rfl
@[simp] theorem State.withFetchWord_disp (s : State) (nbits w : Nat) : (s.withFetchWord nbits w).disp = s.disp := rfl
@[simp] theorem State.withFetchWord_status (s : State) (nbits w : Nat) :
    (s.withFetchWord nbits w).status = s.status := rfl
@[simp] theorem State.withFetchWord_random (s : State) (nbits w : Nat) :
    (s.withFetchWord nbits w).random = s.random := rfl

/-! ### The pseudo-fields: a register, a slot, an effective address -/

theorem State.reg_eq (s : State) (r : Reg) : s.reg r = s.regs[r] := rfl

/-- A register after a write of a register. -/
theorem State.reg_setReg (s : State) (r r' : Reg) (v : Byte) :
    (s.setReg r v).reg r' = if r' = r then v else s.reg r' := by
  by_cases h : r' = r
  · subst h; simp [State.reg, State.setReg]
  · have h' : r.val ≠ r'.val := fun e => h (Fin.ext e.symm)
    simp [State.reg, State.setReg, h, Vector.getElem_set_ne _ _ h']

@[simp] theorem State.reg_setReg_self (s : State) (r : Reg) (v : Byte) : (s.setReg r v).reg r = v := by
  simp [State.reg_setReg]

@[simp] theorem State.reg_advance (s : State) (r : Reg) : s.advance.reg r = s.reg r := rfl
@[simp] theorem State.reg_jumpTo (s : State) (t : Word) (r : Reg) : (s.jumpTo t).reg r = s.reg r := rfl
@[simp] theorem State.reg_raise (s : State) (w : Option Word) (c : FatalCause) (r : Reg) :
    (s.raise w c).reg r = s.reg r := rfl
@[simp] theorem State.reg_halt (s : State) (r : Reg) : s.halt.reg r = s.reg r := rfl
@[simp] theorem State.slot_jumpTo (s : State) (t : Word) (k : Fin 16) : (s.jumpTo t).slot k = s.slot k := rfl

/-- A register after an instruction that writes a result. -/
theorem State.reg_finish (s : State) (r r' : Reg) (v : Byte) :
    (s.finish r v).reg r' = if r' = r then v else s.reg r' := by
  simp [State.finish, State.reg_setReg]

/-- A register after an instruction that writes a result and the flag: the flag comes second (R91). -/
theorem State.reg_finishWithFlag (s : State) (r r' : Reg) (v flag : Byte) :
    (s.finishWithFlag r v flag).reg r' = if r' = flagReg then flag else if r' = r then v else s.reg r' := by
  simp [State.finishWithFlag, State.reg_setReg, State.reg_finish]

/-! ### Skips -/

/-- A skip writes `pc` and nothing else (R80). -/
theorem State.skipIf_eq (s : State) (c : Bool) :
    s.skipIf c = s.jumpTo (if c then s.pc + 4#16 else s.pc + 2#16) := by
  cases c
  · rfl
  · have h : s.pc + 2#16 + 2#16 = s.pc + 4#16 := by rw [BitVec.add_assoc]; rfl
    simp [State.skipIf, State.advance, State.jumpTo, h]

/-! ### The return stack -/

/-- A slot after a write of a slot. -/
theorem slot_set (v : Vector Word 16) (j k : Fin 16) (w : Word) :
    (v.set j w)[k] = if k = j then w else v[k] := by
  by_cases h : k = j
  · subst h; simp
  · have h' : j.val ≠ k.val := fun e => h (Fin.ext e.symm)
    simp [h, Vector.getElem_set_ne _ _ h']

/-- Everything a push can do: nothing on a full stack, else the word in the slot `sp` names and `sp` one up (R73). -/
theorem State.push_cases (s : State) (v : Word) :
    (s.sp.val = 16 ∧ s.push v = none) ∨
    (∃ h : s.sp.val < 16, s.push v =
      some { s with stack := s.stack.set s.sp.val v h, sp := ⟨s.sp.val + 1, Nat.succ_lt_succ h⟩ }) := by
  by_cases h : s.sp.val < 16
  · exact .inr ⟨h, by simp [State.push, h]⟩
  · exact .inl ⟨by have := s.sp.isLt; omega, by simp [State.push, h]⟩

/-- Everything a pop can do: nothing on an empty stack, else the word in the slot below `sp` and `sp` one down (R74). -/
theorem State.pop_cases (s : State) :
    (s.sp.val = 0 ∧ s.pop = none) ∨
    (∃ _h : s.sp.val ≠ 0, s.pop = some (s.slot ⟨s.sp.val - 1, by omega⟩,
      { s with sp := ⟨s.sp.val - 1, by omega⟩ })) := by
  by_cases h : s.sp.val = 0
  · exact .inl ⟨h, by simp [State.pop, h]⟩
  · exact .inr ⟨h, by simp [State.pop, h, State.slot]⟩

/-! ### The random port -/

/-- A draw counts itself, whatever it gives (R134). -/
@[simp] theorem RandomPort.draw_draws (p : RandomPort) : p.draw.2.draws = p.draws + 1 := by
  unfold RandomPort.draw; split <;> rfl

/-- A draw gives the byte the environment has put on the port. -/
theorem RandomPort.draw_offered (b : Byte) (rest : List Byte) (n : Nat) :
    RandomPort.draw { offered := b :: rest, draws := n } = (b, { offered := rest, draws := n + 1 }) := rfl

end Sys2Proof.Machine
end

