-- ==== Sys2Proof/Laws/Exec.lean ====
section
/-!
SUPPORT. What a meaning, and a step, can do, said once: one inversion lemma for each instruction that has more than one
way to end, one for `exec`, one for `step`.
-/

namespace Sys2Proof.Machine

/-! ### The bounds of a data access, in numbers -/

/-- The check of the `n + 1` bytes from `I` finds nothing exactly when the last of them is inside memory (R110). -/
theorem State.outsideAtI_eq_none (s : State) (n : Nat) : s.outsideAtI (n + 1) = none ↔ s.I.toNat + n ≤ 4095 := by
  simp [State.outsideAtI, State.effAddr, lowestOutside_eq_none, Config.memSize]; omega

/-- Otherwise it finds `max(I, 4096)` (R110, R142). -/
theorem State.outsideAtI_of_lt (s : State) (n : Nat) (h : 4096 ≤ s.I.toNat + n) :
    s.outsideAtI (n + 1) = some (max s.I.toNat 4096) := by
  simp [State.outsideAtI, State.effAddr, lowestOutside_eq_some, Config.memSize]; omega

/-- The check of no bytes finds nothing (R123, `d = 0`). -/
@[simp] theorem State.outsideAtI_zero (s : State) : s.outsideAtI 0 = none := by
  simp [State.outsideAtI, lowestOutside_eq_none]

/-! ### One lemma for each meaning with more than one end -/

/-- `CALL` overflows on a full stack, or pushes and jumps (R73). -/
theorem execCall_cases (nnn : Addr12) (s : State) :
    (s.sp.val = 16 ∧ execCall nnn s = .next (s.raise (some (encode (.call nnn))) .stackOverflow)) ∨
    (∃ h : s.sp.val < 16, execCall nnn s = .next
      { s with
        stack := s.stack.set s.sp.val (s.pc + 2#16) h
        sp := ⟨s.sp.val + 1, Nat.succ_lt_succ h⟩
        pc := zext16 nnn }) := by
  rcases s.push_cases s.advance.pc with ⟨h, e⟩ | ⟨h, e⟩
  · exact .inl ⟨h, by rw [execCall, e]; rfl⟩
  · exact .inr ⟨h, by rw [execCall, e]; rfl⟩

/-- `RET` underflows on an empty stack, or goes to the word in the slot below `sp` (R74). -/
theorem execRet_cases (s : State) :
    (s.sp.val = 0 ∧ execRet s = .next (s.raise (some (encode .ret)) .stackUnderflow)) ∨
    (∃ _h : s.sp.val ≠ 0, execRet s = .next
      { s with sp := ⟨s.sp.val - 1, by omega⟩, pc := s.slot ⟨s.sp.val - 1, by omega⟩ }) := by
  rcases s.pop_cases with ⟨h, e⟩ | ⟨h, e⟩
  · exact .inl ⟨h, by rw [execRet, e]; rfl⟩
  · exact .inr ⟨h, by rw [execRet, e]; rfl⟩

/-- `DUMP` finds an address outside memory, or stores (R113). -/
theorem execDump_cases (x : Reg) (s : State) :
    (4096 ≤ s.I.toNat + x.val ∧
      execDump x s = .next (s.raise (some (encode (.dump x))) (.memoryBounds (max s.I.toNat 4096)))) ∨
    (s.I.toNat + x.val ≤ 4095 ∧
      execDump x s = .next { s.advance with mem := s.mem.store s.I.toNat (s.firstRegs (x.val + 1)) }) := by
  by_cases h : s.I.toNat + x.val ≤ 4095
  · exact .inr ⟨h, by rw [execDump, (s.outsideAtI_eq_none x.val).mpr h]; rfl⟩
  · exact .inl ⟨by omega, by rw [execDump, s.outsideAtI_of_lt x.val (by omega)]; rfl⟩

/-- `LOAD` finds an address outside memory, or loads (R114). -/
theorem execLoad_cases (x : Reg) (s : State) :
    (4096 ≤ s.I.toNat + x.val ∧
      execLoad x s = .next (s.raise (some (encode (.load x))) (.memoryBounds (max s.I.toNat 4096)))) ∨
    (s.I.toNat + x.val ≤ 4095 ∧
      execLoad x s = .next { s.advance with regs := loadRegs s.mem s.I.toNat s.regs (x.val + 1) }) := by
  by_cases h : s.I.toNat + x.val ≤ 4095
  · exact .inr ⟨h, by rw [execLoad, (s.outsideAtI_eq_none x.val).mpr h]; rfl⟩
  · exact .inl ⟨by omega, by rw [execLoad, s.outsideAtI_of_lt x.val (by omega)]; rfl⟩

/-- `BCD` finds an address outside memory, or stores (R115). -/
theorem execBcd_cases (x : Reg) (s : State) :
    (4096 ≤ s.I.toNat + 2 ∧
      execBcd x s = .next (s.raise (some (encode (.bcd x))) (.memoryBounds (max s.I.toNat 4096)))) ∨
    (s.I.toNat + 2 ≤ 4095 ∧
      execBcd x s = .next { s.advance with mem := s.mem.store s.I.toNat (bcdDigits (s.reg x)) }) := by
  by_cases h : s.I.toNat + 2 ≤ 4095
  · exact .inr ⟨h, by rw [execBcd, (s.outsideAtI_eq_none 2).mpr h]; rfl⟩
  · exact .inl ⟨by omega, by rw [execBcd, s.outsideAtI_of_lt 2 (by omega)]; rfl⟩

/-- When the rectangle of a `DRAW` stays on the display (R122). -/
theorem rectangleOutside_eq_false (column row : Byte) (d : Nat) :
    rectangleOutside column row d = false ↔ d = 0 ∨ (column.toNat ≤ 56 ∧ row.toNat + d ≤ 32) := by
  simp [rectangleOutside]; omega

/-- `DRAW` finds a sprite byte outside memory, or else a rectangle that leaves the display, or draws (R123, R144). -/
theorem execDraw_cases (x y : Reg) (d : Fin 16) (s : State) :
    ((1 ≤ d.val ∧ 4096 < s.I.toNat + d.val) ∧
      execDraw x y d s = .next (s.raise (some (encode (.draw x y d))) (.memoryBounds (max s.I.toNat 4096)))) ∨
    ((1 ≤ d.val ∧ s.I.toNat + d.val ≤ 4096 ∧ (56 < (s.reg x).toNat ∨ 32 < (s.reg y).toNat + d.val)) ∧
      execDraw x y d s =
        .next (s.raise (some (encode (.draw x y d))) (.displayBounds (s.reg x) (s.reg y) d))) ∨
    ((d.val = 0 ∨ (s.I.toNat + d.val ≤ 4096 ∧ (s.reg x).toNat ≤ 56 ∧ (s.reg y).toNat + d.val ≤ 32)) ∧
      execDraw x y d s = .next
        { s.finish flagReg (collisionFlag (s.drawing x y d.val)) with disp := (s.drawing x y d.val).disp }) := by
  by_cases h0 : d.val = 0
  · refine .inr (.inr ⟨.inl h0, ?_⟩)
    have hr : rectangleOutside (s.reg x) (s.reg y) d.val = false :=
      (rectangleOutside_eq_false _ _ _).mpr (.inl h0)
    have ho : s.outsideAtI d.val = none := by rw [h0]; exact s.outsideAtI_zero
    unfold execDraw; rw [ho, hr]; rfl
  · obtain ⟨n, hn⟩ : ∃ n, d.val = n + 1 := ⟨d.val - 1, by omega⟩
    by_cases hm : 4096 < s.I.toNat + d.val
    · refine .inl ⟨⟨by omega, hm⟩, ?_⟩
      have ho : s.outsideAtI d.val = some (max s.I.toNat 4096) := by
        rw [hn]; exact s.outsideAtI_of_lt n (by omega)
      unfold execDraw; rw [ho]; rfl
    · have ho : s.outsideAtI d.val = none := by rw [hn]; exact (s.outsideAtI_eq_none n).mpr (by omega)
      cases hr : rectangleOutside (s.reg x) (s.reg y) d.val
      · refine .inr (.inr ⟨.inr ?_, ?_⟩)
        · have := (rectangleOutside_eq_false _ _ _).mp hr; omega
        · unfold execDraw; rw [ho, hr]; rfl
      · refine .inr (.inl ⟨?_, ?_⟩)
        · have h' := mt (rectangleOutside_eq_false (s.reg x) (s.reg y) d.val).mpr (by rw [hr]; simp)
          omega
        · unfold execDraw; rw [ho, hr]; rfl

/-- The one end of a skip (R80). -/
theorem skip_eq (s : State) (c : Bool) :
    (.next (s.skipIf c) : Host.Outcome State Fault Refusal) =
      .next (s.jumpTo (if c then s.pc + 4#16 else s.pc + 2#16)) := by rw [State.skipIf_eq]

/-- Everything an instruction can do to the latch: it raises a fault and changes nothing else, or it completes and
leaves the latch, or it is `HALT`. -/
theorem exec_cases (i : Instr) (s : State) :
    (∃ c, exec i s = .next (s.raise (some (encode i)) c)) ∨
    (∃ t, exec i s = .next t ∧ t.status = s.status ∧ i ≠ .halt) ∨
    (i = .halt ∧ exec i s = .next s.advance.halt) := by
  cases i with
  | halt => exact .inr (.inr ⟨rfl, rfl⟩)
  | ret =>
    rcases execRet_cases s with ⟨_, e⟩ | ⟨_, e⟩
    · exact .inl ⟨_, e⟩
    · exact .inr (.inl ⟨_, e, rfl, by simp⟩)
  | call nnn =>
    rcases execCall_cases nnn s with ⟨_, e⟩ | ⟨_, e⟩
    · exact .inl ⟨_, e⟩
    · exact .inr (.inl ⟨_, e, rfl, by simp⟩)
  | skeqi x nn => exact .inr (.inl ⟨_, skip_eq s _, rfl, by simp⟩)
  | sknei x nn => exact .inr (.inl ⟨_, skip_eq s _, rfl, by simp⟩)
  | skeq x y => exact .inr (.inl ⟨_, skip_eq s _, rfl, by simp⟩)
  | skne x y => exact .inr (.inl ⟨_, skip_eq s _, rfl, by simp⟩)
  | dump x =>
    rcases execDump_cases x s with ⟨_, e⟩ | ⟨_, e⟩
    · exact .inl ⟨_, e⟩
    · exact .inr (.inl ⟨_, e, rfl, by simp⟩)
  | load x =>
    rcases execLoad_cases x s with ⟨_, e⟩ | ⟨_, e⟩
    · exact .inl ⟨_, e⟩
    · exact .inr (.inl ⟨_, e, rfl, by simp⟩)
  | bcd x =>
    rcases execBcd_cases x s with ⟨_, e⟩ | ⟨_, e⟩
    · exact .inl ⟨_, e⟩
    · exact .inr (.inl ⟨_, e, rfl, by simp⟩)
  | draw x y d =>
    rcases execDraw_cases x y d s with ⟨_, e⟩ | ⟨_, e⟩ | ⟨_, e⟩
    · exact .inl ⟨_, e⟩
    · exact .inl ⟨_, e⟩
    · exact .inr (.inl ⟨_, e, rfl, by simp⟩)
  | _ => exact .inr (.inl ⟨_, rfl, rfl, by simp⟩)

/-! ### The step -/

/-- The fetch at a `pc` from which two bytes can be read (R31). -/
theorem fetch_of_le (s : State) (h : s.pc.toNat ≤ 4094) :
    fetch s = .ok (wordOfBytes (s.mem.read s.pc.toNat) (s.mem.read (s.pc.toNat + 1))) := by
  unfold fetch
  rw [(lowestOutside_eq_none _ _).mpr (by simp [Config.memSize]; omega)]

/-- The fetch at any other `pc` (R33). -/
theorem fetch_of_gt (s : State) (h : 4095 ≤ s.pc.toNat) :
    fetch s = .error (.memoryBounds (max s.pc.toNat 4096)) := by
  unfold fetch
  rw [(lowestOutside_eq_some _ _ (max s.pc.toNat 4096)).mpr (by simp [Config.memSize]; omega)]

/-- Everything a step of a running core can do: the fetch fails, or the word is no instruction, or the instruction at
`pc` is executed (R54, R144). -/
theorem step_cases (s : State) (hr : s.status = .running) :
    (4095 ≤ s.pc.toNat ∧ fetch s = .error (.memoryBounds (max s.pc.toNat 4096)) ∧
      step s = .next (s.raise none (.memoryBounds (max s.pc.toNat 4096)))) ∨
    (∃ w e, s.pc.toNat ≤ 4094 ∧ fetch s = .ok w ∧ decodeWord w = .error e ∧
      step s = .next (s.raise (some w) .invalidOpcode)) ∨
    (∃ w i, s.pc.toNat ≤ 4094 ∧ fetch s = .ok w ∧ decodeWord w = .ok i ∧ step s = exec i s) := by
  by_cases h : s.pc.toNat ≤ 4094
  · have hf := fetch_of_le s h
    cases hd : decodeWord (wordOfBytes (s.mem.read s.pc.toNat) (s.mem.read (s.pc.toNat + 1))) with
    | error e => exact .inr (.inl ⟨_, e, h, hf, hd, by simp only [step, hr, hf, hd]⟩)
    | ok i => exact .inr (.inr ⟨_, i, h, hf, hd, by simp only [step, hr, hf, hd]⟩)
  · have hf := fetch_of_gt s (by omega)
    exact .inl ⟨by omega, hf, by simp only [step, hr, hf]⟩

end Sys2Proof.Machine
end

