-- ==== Sys2Proof/Laws/PerInstr.lean ====
section
/-!
SUPPORT. What holds of every instruction as a piece of syntax, one lemma for each constructor: its encoding selects the row of the
opcode map (spec/30_encoding.md R56) that it stands for.
-/

namespace Sys2Proof.Laws

/-- The encoding of an instruction selects a row of the opcode map, and the row bears the instruction's name. -/
def EncodingSelectsItsRow.Statement (i : Instr) : Prop :=
  ∃ r ∈ opcodeTable, r.mnemonic = i.mnemonic ∧ r.selects (encode i) = true

/-- The lemma every constructor goes through: the row, in nibbles, and the word, in nibbles. -/
theorem EncodingSelectsItsRow.of_nibbles {i : Instr} (r : OpcodeRow) (hr : r ∈ opcodeTable) (hm : r.mnemonic = i.mnemonic)
    (rc rx ry rd mc mx my md c x y d : Nibble) (hw : r.word = wordOf rc rx ry rd) (hk : r.mask = wordOf mc mx my md)
    (he : encode i = wordOf c x y d)
    (h : c &&& mc = rc ∧ x &&& mx = rx ∧ y &&& my = ry ∧ d &&& md = rd) : EncodingSelectsItsRow.Statement i := by
  obtain ⟨m, w, k⟩ := r
  subst hw hk
  exact ⟨_, hr, hm, by rw [he]; exact (selects_wordOf m _ _ _ _ _ _ _ _ _ _ _ _).mpr h⟩

theorem EncodingSelectsItsRow.halt : EncodingSelectsItsRow.Statement .halt :=
  of_nibbles ⟨.HALT, 0x0000#16, 0xFFFF#16⟩ (by decide) rfl 0x0#4 0x0#4 0x0#4 0x0#4
    0xF#4 0xF#4 0xF#4 0xF#4 _ _ _ _ rfl rfl rfl (by simp)

theorem EncodingSelectsItsRow.ret : EncodingSelectsItsRow.Statement .ret :=
  of_nibbles ⟨.RET, 0x00EE#16, 0xFFFF#16⟩ (by decide) rfl 0x0#4 0x0#4 0xE#4 0xE#4
    0xF#4 0xF#4 0xF#4 0xF#4 _ _ _ _ rfl rfl rfl (by simp)

theorem EncodingSelectsItsRow.jump (nnn : Addr12) : EncodingSelectsItsRow.Statement (.jump nnn) :=
  of_nibbles ⟨.JUMP, 0x1000#16, 0xF000#16⟩ (by decide) rfl 0x1#4 0x0#4 0x0#4 0x0#4
    0xF#4 0x0#4 0x0#4 0x0#4 _ _ _ _ rfl rfl (wordOfN_eq _ _) (by simp)

theorem EncodingSelectsItsRow.call (nnn : Addr12) : EncodingSelectsItsRow.Statement (.call nnn) :=
  of_nibbles ⟨.CALL, 0x2000#16, 0xF000#16⟩ (by decide) rfl 0x2#4 0x0#4 0x0#4 0x0#4
    0xF#4 0x0#4 0x0#4 0x0#4 _ _ _ _ rfl rfl (wordOfN_eq _ _) (by simp)

theorem EncodingSelectsItsRow.skeqi (x : Reg) (nn : Byte) : EncodingSelectsItsRow.Statement (.skeqi x nn) :=
  of_nibbles ⟨.SKEQI, 0x3000#16, 0xF000#16⟩ (by decide) rfl 0x3#4 0x0#4 0x0#4 0x0#4
    0xF#4 0x0#4 0x0#4 0x0#4 _ _ _ _ rfl rfl (wordOfXN_eq _ _ _) (by simp)

theorem EncodingSelectsItsRow.sknei (x : Reg) (nn : Byte) : EncodingSelectsItsRow.Statement (.sknei x nn) :=
  of_nibbles ⟨.SKNEI, 0x4000#16, 0xF000#16⟩ (by decide) rfl 0x4#4 0x0#4 0x0#4 0x0#4
    0xF#4 0x0#4 0x0#4 0x0#4 _ _ _ _ rfl rfl (wordOfXN_eq _ _ _) (by simp)

theorem EncodingSelectsItsRow.skeq (x y : Reg) : EncodingSelectsItsRow.Statement (.skeq x y) :=
  of_nibbles ⟨.SKEQ, 0x5000#16, 0xF00F#16⟩ (by decide) rfl 0x5#4 0x0#4 0x0#4 0x0#4
    0xF#4 0x0#4 0x0#4 0xF#4 _ _ _ _ rfl rfl rfl (by simp)

theorem EncodingSelectsItsRow.ldi (x : Reg) (nn : Byte) : EncodingSelectsItsRow.Statement (.ldi x nn) :=
  of_nibbles ⟨.LDI, 0x6000#16, 0xF000#16⟩ (by decide) rfl 0x6#4 0x0#4 0x0#4 0x0#4
    0xF#4 0x0#4 0x0#4 0x0#4 _ _ _ _ rfl rfl (wordOfXN_eq _ _ _) (by simp)

theorem EncodingSelectsItsRow.addi (x : Reg) (nn : Byte) : EncodingSelectsItsRow.Statement (.addi x nn) :=
  of_nibbles ⟨.ADDI, 0x7000#16, 0xF000#16⟩ (by decide) rfl 0x7#4 0x0#4 0x0#4 0x0#4
    0xF#4 0x0#4 0x0#4 0x0#4 _ _ _ _ rfl rfl (wordOfXN_eq _ _ _) (by simp)

theorem EncodingSelectsItsRow.mov (x y : Reg) : EncodingSelectsItsRow.Statement (.mov x y) :=
  of_nibbles ⟨.MOV, 0x8000#16, 0xF00F#16⟩ (by decide) rfl 0x8#4 0x0#4 0x0#4 0x0#4
    0xF#4 0x0#4 0x0#4 0xF#4 _ _ _ _ rfl rfl rfl (by simp)

theorem EncodingSelectsItsRow.or (x y : Reg) : EncodingSelectsItsRow.Statement (.or x y) :=
  of_nibbles ⟨.OR, 0x8001#16, 0xF00F#16⟩ (by decide) rfl 0x8#4 0x0#4 0x0#4 0x1#4
    0xF#4 0x0#4 0x0#4 0xF#4 _ _ _ _ rfl rfl rfl (by simp)

theorem EncodingSelectsItsRow.and (x y : Reg) : EncodingSelectsItsRow.Statement (.and x y) :=
  of_nibbles ⟨.AND, 0x8002#16, 0xF00F#16⟩ (by decide) rfl 0x8#4 0x0#4 0x0#4 0x2#4
    0xF#4 0x0#4 0x0#4 0xF#4 _ _ _ _ rfl rfl rfl (by simp)

theorem EncodingSelectsItsRow.xor (x y : Reg) : EncodingSelectsItsRow.Statement (.xor x y) :=
  of_nibbles ⟨.XOR, 0x8003#16, 0xF00F#16⟩ (by decide) rfl 0x8#4 0x0#4 0x0#4 0x3#4
    0xF#4 0x0#4 0x0#4 0xF#4 _ _ _ _ rfl rfl rfl (by simp)

theorem EncodingSelectsItsRow.add (x y : Reg) : EncodingSelectsItsRow.Statement (.add x y) :=
  of_nibbles ⟨.ADD, 0x8004#16, 0xF00F#16⟩ (by decide) rfl 0x8#4 0x0#4 0x0#4 0x4#4
    0xF#4 0x0#4 0x0#4 0xF#4 _ _ _ _ rfl rfl rfl (by simp)

theorem EncodingSelectsItsRow.sub (x y : Reg) : EncodingSelectsItsRow.Statement (.sub x y) :=
  of_nibbles ⟨.SUB, 0x8005#16, 0xF00F#16⟩ (by decide) rfl 0x8#4 0x0#4 0x0#4 0x5#4
    0xF#4 0x0#4 0x0#4 0xF#4 _ _ _ _ rfl rfl rfl (by simp)

theorem EncodingSelectsItsRow.shr (x : Reg) : EncodingSelectsItsRow.Statement (.shr x) :=
  of_nibbles ⟨.SHR, 0x8006#16, shiftMask⟩ (by decide) rfl 0x8#4 0x0#4 0x0#4 0x6#4
    0xF#4 0x0#4 0xF#4 0xF#4 _ _ _ _ rfl rfl rfl (by simp)

theorem EncodingSelectsItsRow.subr (x y : Reg) : EncodingSelectsItsRow.Statement (.subr x y) :=
  of_nibbles ⟨.SUBR, 0x8007#16, 0xF00F#16⟩ (by decide) rfl 0x8#4 0x0#4 0x0#4 0x7#4
    0xF#4 0x0#4 0x0#4 0xF#4 _ _ _ _ rfl rfl rfl (by simp)

theorem EncodingSelectsItsRow.shl (x : Reg) : EncodingSelectsItsRow.Statement (.shl x) :=
  of_nibbles ⟨.SHL, 0x800E#16, shiftMask⟩ (by decide) rfl 0x8#4 0x0#4 0x0#4 0xE#4
    0xF#4 0x0#4 0xF#4 0xF#4 _ _ _ _ rfl rfl rfl (by simp)

theorem EncodingSelectsItsRow.skne (x y : Reg) : EncodingSelectsItsRow.Statement (.skne x y) :=
  of_nibbles ⟨.SKNE, 0x9000#16, 0xF00F#16⟩ (by decide) rfl 0x9#4 0x0#4 0x0#4 0x0#4
    0xF#4 0x0#4 0x0#4 0xF#4 _ _ _ _ rfl rfl rfl (by simp)

theorem EncodingSelectsItsRow.seti (nnn : Addr12) : EncodingSelectsItsRow.Statement (.seti nnn) :=
  of_nibbles ⟨.SETI, 0xA000#16, 0xF000#16⟩ (by decide) rfl 0xA#4 0x0#4 0x0#4 0x0#4
    0xF#4 0x0#4 0x0#4 0x0#4 _ _ _ _ rfl rfl (wordOfN_eq _ _) (by simp)

theorem EncodingSelectsItsRow.jumpv0 (nnn : Addr12) : EncodingSelectsItsRow.Statement (.jumpv0 nnn) :=
  of_nibbles ⟨.JUMPV0, 0xB000#16, 0xF000#16⟩ (by decide) rfl 0xB#4 0x0#4 0x0#4 0x0#4
    0xF#4 0x0#4 0x0#4 0x0#4 _ _ _ _ rfl rfl (wordOfN_eq _ _) (by simp)

theorem EncodingSelectsItsRow.rand (x : Reg) (nn : Byte) : EncodingSelectsItsRow.Statement (.rand x nn) :=
  of_nibbles ⟨.RAND, 0xC000#16, 0xF000#16⟩ (by decide) rfl 0xC#4 0x0#4 0x0#4 0x0#4
    0xF#4 0x0#4 0x0#4 0x0#4 _ _ _ _ rfl rfl (wordOfXN_eq _ _ _) (by simp)

theorem EncodingSelectsItsRow.draw (x y : Reg) (d : Fin 16) : EncodingSelectsItsRow.Statement (.draw x y d) :=
  of_nibbles ⟨.DRAW, 0xD000#16, 0xF000#16⟩ (by decide) rfl 0xD#4 0x0#4 0x0#4 0x0#4
    0xF#4 0x0#4 0x0#4 0x0#4 _ _ _ _ rfl rfl rfl (by simp)

theorem EncodingSelectsItsRow.adda (x : Reg) : EncodingSelectsItsRow.Statement (.adda x) :=
  of_nibbles ⟨.ADDA, 0xF01E#16, 0xF0FF#16⟩ (by decide) rfl 0xF#4 0x0#4 0x1#4 0xE#4
    0xF#4 0x0#4 0xF#4 0xF#4 _ _ _ _ rfl rfl rfl (by simp)

theorem EncodingSelectsItsRow.bcd (x : Reg) : EncodingSelectsItsRow.Statement (.bcd x) :=
  of_nibbles ⟨.BCD, 0xF033#16, 0xF0FF#16⟩ (by decide) rfl 0xF#4 0x0#4 0x3#4 0x3#4
    0xF#4 0x0#4 0xF#4 0xF#4 _ _ _ _ rfl rfl rfl (by simp)

theorem EncodingSelectsItsRow.dump (x : Reg) : EncodingSelectsItsRow.Statement (.dump x) :=
  of_nibbles ⟨.DUMP, 0xF055#16, 0xF0FF#16⟩ (by decide) rfl 0xF#4 0x0#4 0x5#4 0x5#4
    0xF#4 0x0#4 0xF#4 0xF#4 _ _ _ _ rfl rfl rfl (by simp)

theorem EncodingSelectsItsRow.load (x : Reg) : EncodingSelectsItsRow.Statement (.load x) :=
  of_nibbles ⟨.LOAD, 0xF065#16, 0xF0FF#16⟩ (by decide) rfl 0xF#4 0x0#4 0x6#4 0x5#4
    0xF#4 0x0#4 0xF#4 0xF#4 _ _ _ _ rfl rfl rfl (by simp)

end Sys2Proof.Laws
end

