-- ==== Sys2Proof/Tests/Slice0.lean ====
section
/-!
SUPPORT. Small tests, each of one step or one word. The expected results are those of spec/95_test_vectors.md (the vector
is named in the comment) or are written out from the encodings of spec/30_encoding.md. At the end stand the witnesses: for
each statement with hypotheses, concrete data that meet them.
-/

namespace Sys2Proof.Tests

open Sys2Proof.Machine

/-! ### Helpers -/

/-- The reset state with a word at `pc` and some registers. -/
def start (word : Nat) (regs : List (Reg × Byte)) : State :=
  regs.foldl (fun s p => s.setReg p.1 p.2) (State.reset.withFetchWord 16 word)

/-- `s` with bytes at an address. -/
def bytesAt (s : State) (a : Nat) (bytes : List Byte) : State := { s with mem := s.mem.store a bytes }

/-- The outcome is a next state with `p`. -/
def nextWith (o : Host.Outcome State Fault Refusal) (p : State → Bool) : Bool :=
  match o with
  | .next t => p t
  | .fault _ => false
  | .refused _ => false

/-- The step of `s` is the fault `cause`, at the reset `pc`, with the word `w`. -/
def fatalAt200 (s : State) (w : Word) (cause : FatalCause) : Bool :=
  nextWith (step s) fun t => t.status == .faulted { a0 := 200#16, word := some w, cause := cause } && t.pc == 200#16

/-! ### Well-formedness: one ill-formed line for each check (R61) -/

theorem test_wellFormed_register_16 : (AsmLine.mk .LDI [16, 0]).wellFormed = false := by decide
theorem test_wellFormed_nn_256 : (AsmLine.mk .LDI [0, 256]).wellFormed = false := by decide
theorem test_wellFormed_nnn_4096 : (AsmLine.mk .JUMP [4096]).wellFormed = false := by decide
theorem test_wellFormed_rows_16 : (AsmLine.mk .DRAW [0, 0, 16]).wellFormed = false := by decide
theorem test_wellFormed_too_few : (AsmLine.mk .ADD [1]).wellFormed = false := by decide
theorem test_wellFormed_too_many : (AsmLine.mk .SHR [1, 0]).wellFormed = false := by decide
theorem test_toInstr_refuses : (AsmLine.mk .LDI [16, 0]).toInstr = none ∧ (AsmLine.mk .RAND [256]).toInstr = none := by
  decide
/-- The canonical form of `RAND` leaves its register out (R61). -/
theorem test_toInstr_rand : ((AsmLine.mk .RAND [0x0F]).toInstr).map encode = some 0xC00F#16 := by decide

/-! ### Decoding: every constructor, from a word written out from R56 -/

theorem test_decode_control :
    decodeTableWord 16 0b0000000000000000 = some .halt ∧ decodeTableWord 16 0b0000000011101110 = some .ret ∧
    decodeTableWord 16 0b0001001000110100 = some (.jump 0x234#12) ∧
    decodeTableWord 16 0b0010000100000000 = some (.call 0x100#12) ∧
    decodeTableWord 16 0b1011101100000000 = some (.jumpv0 0xB00#12) := by decide
theorem test_decode_skips :
    decodeTableWord 16 0b0011001100101010 = some (.skeqi 3 0x2A#8) ∧
    decodeTableWord 16 0b0100001100101010 = some (.sknei 3 0x2A#8) ∧
    decodeTableWord 16 0b0101000100100000 = some (.skeq 1 2) ∧
    decodeTableWord 16 0b1001000100100000 = some (.skne 1 2) := by decide
theorem test_decode_moves :
    decodeTableWord 16 0b0110101001111111 = some (.ldi 10 0x7F#8) ∧
    decodeTableWord 16 0b0111001000000010 = some (.addi 2 0x02#8) ∧
    decodeTableWord 16 0b1000001101000000 = some (.mov 3 4) ∧
    decodeTableWord 16 0b1100010100001111 = some (.rand 5 0x0F#8) := by decide
theorem test_decode_alu :
    decodeTableWord 16 0b1000000100100001 = some (.or 1 2) ∧ decodeTableWord 16 0b1000000100100010 = some (.and 1 2) ∧
    decodeTableWord 16 0b1000000100100011 = some (.xor 1 2) ∧ decodeTableWord 16 0b1000111100010100 = some (.add 15 1) ∧
    decodeTableWord 16 0b1000000000010101 = some (.sub 0 1) ∧ decodeTableWord 16 0b1000000000010111 = some (.subr 0 1) ∧
    decodeTableWord 16 0b1000001100000110 = some (.shr 3) ∧ decodeTableWord 16 0b1000001100001110 = some (.shl 3) := by
  decide
theorem test_decode_memory_and_display :
    decodeTableWord 16 0b1010001011110000 = some (.seti 0x2F0#12) ∧ decodeTableWord 16 0b1111001000011110 = some (.adda 2) ∧
    decodeTableWord 16 0b1111011100110011 = some (.bcd 7) ∧ decodeTableWord 16 0b1111001001010101 = some (.dump 2) ∧
    decodeTableWord 16 0b1111010001100101 = some (.load 4) ∧
    decodeTableWord 16 0b1101000100100101 = some (.draw 1 2 5) := by decide
/-- V-F8. -/
theorem test_decode_invalid :
    [0x5121, 0x9121, 0x8128, 0x812F, 0xE19E, 0xE1A1, 0xF107, 0xF10A, 0xF115, 0xF118, 0xF129, 0x0123, 0x00E0, 0x8156].all
      (fun w => decodeTableWord 16 w == none) = true := by decide
theorem test_decode_truncated : decode [0x12#8] = .error .truncated := rfl

/-! ### Fetch and step (spec/95_test_vectors.md 2.1) -/

/-- V-F2: an instruction at an odd address. -/
theorem test_step_odd_pc : nextWith (step (bytesAt { State.reset with pc := 201#16 } 201 [0x61#8, 0x2A#8]))
    (fun t => t.reg 1 == 0x2A#8 && t.pc == 203#16) = true := by decide
/-- V-F3: the last address from which a word can be fetched. -/
theorem test_step_last_fetch : nextWith (step { State.reset with pc := 4094#16 })
    (fun t => t.status == .halted && t.pc == 4096#16) = true := by decide
/-- V-F4, V-F5. -/
theorem test_step_fetch_bounds : [4095#16, 4096#16].all (fun p => nextWith (step { State.reset with pc := p })
    (fun t => t.status == .faulted { a0 := p, word := none, cause := .memoryBounds 4096 } && t.pc == p)) = true := by decide
/-- V-F6, V-F7. -/
theorem test_step_invalid : (fatalAt200 (start 0x00E0 []) 0x00E0#16 .invalidOpcode &&
    fatalAt200 (start 0x8156 []) 0x8156#16 .invalidOpcode) = true := by decide

/-! ### Control flow (2.2) -/

/-- V-C1, V-R1: the reset state halts at 200. -/
theorem test_halt : nextWith (step State.reset) (fun t => t.status == .halted && t.pc == 202#16) = true := by decide
/-- V-C2. -/
theorem test_jump : nextWith (step (start 0x1234 [])) (fun t => t.pc == 0x0234#16 && t.status == .running) = true := by
  decide
/-- V-C6: the sixteenth nested call. -/
theorem test_call_last_slot : nextWith (step { start 0x2100 [] with sp := 15 })
    (fun t => t.slot 15 == 202#16 && t.sp == 16 && t.pc == 0x0100#16) = true := by decide
/-- V-C7. -/
theorem test_call_overflow : fatalAt200 { start 0x2100 [] with sp := 16 } 0x2100#16 .stackOverflow = true := by decide
/-- V-C8. -/
theorem test_ret : nextWith (step { start 0x00EE [] with sp := 1, stack := State.reset.stack.set 0 0x0300#16 })
    (fun t => t.sp == 0 && t.pc == 0x0300#16 && t.slot 0 == 0x0300#16) = true := by decide
/-- V-C9, P6c. -/
theorem test_ret_underflow : fatalAt200 (start 0x00EE []) 0x00EE#16 .stackUnderflow = true := by decide
/-- V-C11: the sum is not masked. -/
theorem test_jumpv0_unmasked : nextWith (step (start 0xBFFF [(0, 0xFF#8)])) (fun t => t.pc == 0x10FE#16) = true := by
  decide
/-- V-C12: bits 11:8 are no register. -/
theorem test_jumpv0_register_zero : nextWith (step (start 0xBB00 [(11, 0x55#8)])) (fun t => t.pc == 0x0B00#16) = true := by
  decide

/-! ### Skips (2.3) -/

/-- V-S1, V-S2. -/
theorem test_skeqi : (nextWith (step (start 0x332A [(3, 0x2A#8)])) (fun t => t.pc == 204#16) &&
    nextWith (step (start 0x332A [(3, 0x2B#8)])) (fun t => t.pc == 202#16)) = true := by decide
/-- V-S3, V-S4. -/
theorem test_sknei : (nextWith (step (start 0x432A [(3, 0x2A#8)])) (fun t => t.pc == 202#16) &&
    nextWith (step (start 0x432A [])) (fun t => t.pc == 204#16)) = true := by decide
/-- V-S5, V-S6. -/
theorem test_skeq : (nextWith (step (start 0x5120 [(1, 7#8), (2, 7#8)])) (fun t => t.pc == 204#16) &&
    nextWith (step (start 0x5120 [(1, 7#8), (2, 8#8)])) (fun t => t.pc == 202#16)) = true := by decide
/-- V-S7, V-S8. -/
theorem test_skne : (nextWith (step (start 0x9120 [(1, 7#8), (2, 8#8)])) (fun t => t.pc == 204#16) &&
    nextWith (step (start 0x9120 [(1, 7#8), (2, 7#8)])) (fun t => t.pc == 202#16)) = true := by decide

/-! ### ALU (2.4) -/

/-- V-A2. -/
theorem test_ldi_flag : nextWith (step (start 0x6F09 [])) (fun t => t.reg 15 == 9#8 && t.pc == 202#16) = true := by decide
/-- V-A3. -/
theorem test_addi_wraps : nextWith (step (start 0x7202 [(2, 0xFF#8)])) (fun t => t.reg 2 == 1#8 && t.reg 15 == 0#8) = true := by
  decide
/-- V-A5. -/
theorem test_mov : nextWith (step (start 0x8340 [(4, 9#8)])) (fun t => t.reg 3 == 9#8 && t.reg 4 == 9#8) = true := by decide
/-- V-A6. -/
theorem test_or : nextWith (step (start 0x8121 [(1, 0xCC#8), (2, 0xAA#8), (15, 1#8)]))
    (fun t => t.reg 1 == 0xEE#8 && t.reg 15 == 1#8) = true := by decide
/-- V-A7. -/
theorem test_and : nextWith (step (start 0x8122 [(1, 0xCC#8), (2, 0xAA#8), (15, 1#8)]))
    (fun t => t.reg 1 == 0x88#8 && t.reg 15 == 1#8) = true := by decide
/-- V-A8. -/
theorem test_xor : nextWith (step (start 0x8123 [(1, 0xCC#8), (2, 0xAA#8), (15, 1#8)]))
    (fun t => t.reg 1 == 0x66#8 && t.reg 15 == 1#8) = true := by decide
/-- V-A13, V-A11. -/
theorem test_add_carry : (nextWith (step (start 0x8014 [(0, 255#8), (1, 1#8)])) (fun t => t.reg 0 == 0#8 && t.reg 15 == 1#8) &&
    nextWith (step (start 0x8014 [(0, 1#8), (1, 2#8), (15, 1#8)])) (fun t => t.reg 0 == 3#8 && t.reg 15 == 0#8)) = true := by
  decide
/-- V-A15, V-A16: register 15 as destination and as source. -/
theorem test_add_flag_register : (nextWith (step (start 0x8F14 [(15, 200#8), (1, 100#8)])) (fun t => t.reg 15 == 1#8) &&
    nextWith (step (start 0x82F4 [(15, 0x80#8), (2, 5#8)])) (fun t => t.reg 2 == 0x85#8 && t.reg 15 == 0#8)) = true := by
  decide
/-- V-A18, V-A19. -/
theorem test_sub : (nextWith (step (start 0x8015 [(0, 5#8), (1, 5#8)])) (fun t => t.reg 0 == 0#8 && t.reg 15 == 1#8) &&
    nextWith (step (start 0x8015 [(0, 5#8), (1, 10#8)])) (fun t => t.reg 0 == 251#8 && t.reg 15 == 0#8)) = true := by decide
/-- V-A22, V-A23. -/
theorem test_subr : (nextWith (step (start 0x8017 [(0, 5#8), (1, 10#8)])) (fun t => t.reg 0 == 5#8 && t.reg 15 == 1#8) &&
    nextWith (step (start 0x8017 [(0, 10#8), (1, 5#8)])) (fun t => t.reg 0 == 251#8 && t.reg 15 == 0#8)) = true := by decide
/-- V-A28, V-A29. -/
theorem test_shr : (nextWith (step (start 0x8306 [(3, 0xFF#8)])) (fun t => t.reg 3 == 0x7F#8 && t.reg 15 == 1#8) &&
    nextWith (step (start 0x8F06 [(15, 3#8)])) (fun t => t.reg 15 == 1#8)) = true := by decide
/-- V-A30, V-A33. -/
theorem test_shl : (nextWith (step (start 0x830E [(3, 0x91#8)])) (fun t => t.reg 3 == 0x22#8 && t.reg 15 == 1#8) &&
    nextWith (step (start 0x8F0E [(15, 0x40#8)])) (fun t => t.reg 15 == 0#8)) = true := by decide
/-- V-A34: the field `x` is 5 and register 0 is written. -/
theorem test_rand_register_zero : nextWith (step ((start 0xC50F [(0, 0xEE#8), (5, 0x33#8)]).offer [0xA7#8]))
    (fun t => t.reg 0 == 0x07#8 && t.reg 5 == 0x33#8 && t.random.offered == []) = true := by decide
/-- V-A35: with nothing offered the byte is free, and `nn = 0` gives 0 whatever it is. -/
theorem test_rand_zero : nextWith (step (start 0xC000 [])) (fun t => t.random.draws == 1 && t.pc == 202#16) = true := by
  decide

/-! ### Memory indirection (2.5) -/

/-- V-M1. -/
theorem test_seti : nextWith (step (start 0xA2F0 [])) (fun t => t.I == 0x02F0#16) = true := by decide
/-- V-M3, V-M4. -/
theorem test_adda : (nextWith (step { start 0xF31E [(3, 1#8)] with I := 0xFFFF#16 }) (fun t => t.I == 0#16 && t.reg 15 == 0#8) &&
    nextWith (step { start 0xF31E [(3, 1#8)] with I := 0x0FFF#16 }) (fun t => t.I == 0x1000#16)) = true := by decide
/-- V-M5. -/
theorem test_dump : nextWith (step { start 0xF255 [(0, 0x11#8), (1, 0x22#8), (2, 0x33#8), (3, 0x44#8)] with I := 0x300#16 })
    (fun t => t.mem.read 0x300 == 0x11#8 && t.mem.read 0x302 == 0x33#8 && t.mem.read 0x303 == 0#8 && t.I == 0x300#16) = true := by
  decide
/-- V-M7, V-M8. -/
theorem test_dump_bounds : (nextWith (step { start 0xF555 [(5, 6#8)] with I := 4090#16 }) (fun t => t.mem.read 4095 == 6#8) &&
    fatalAt200 { start 0xF655 [] with I := 4090#16 } 0xF655#16 (.memoryBounds 4096)) = true := by decide
/-- V-M9. -/
theorem test_load : nextWith (step (bytesAt { start 0xF265 [(3, 9#8)] with I := 0x300#16 } 0x300 [0xAA#8, 0xBB#8, 0xCC#8, 0xDD#8]))
    (fun t => t.reg 0 == 0xAA#8 && t.reg 2 == 0xCC#8 && t.reg 3 == 9#8 && t.I == 0x300#16) = true := by decide
/-- V-M10. -/
theorem test_load_bounds : fatalAt200 { start 0xF065 [] with I := 0x1000#16 } 0xF065#16 (.memoryBounds 4096) = true := by decide
/-- V-M12. -/
theorem test_bcd : nextWith (step { start 0xF733 [(7, 213#8)] with I := 0x300#16 })
    (fun t => t.mem.read 0x300 == 2#8 && t.mem.read 0x301 == 1#8 && t.mem.read 0x302 == 3#8) = true := by decide
/-- V-M15, V-M16. -/
theorem test_bcd_bounds : (nextWith (step { start 0xF033 [(0, 255#8)] with I := 4093#16 }) (fun t => t.mem.read 4095 == 5#8) &&
    fatalAt200 { start 0xF033 [(0, 255#8)] with I := 4094#16 } 0xF033#16 (.memoryBounds 4096)) = true := by decide

/-! ### Display (2.6) -/

/-- V-D3: a sprite of two rows on a clear display. -/
theorem test_draw : nextWith (step (bytesAt { start 0xD122 [(1, 8#8), (2, 4#8)] with I := 0x300#16 } 0x300 [0xC3#8, 0x81#8]))
    (fun t => (List.range 16).filter (Display.pixel t.disp 4) == [8, 9, 14, 15] &&
      (List.range 16).filter (Display.pixel t.disp 5) == [8, 15] && t.reg 15 == 0#8) = true := by decide
/-- V-D12 and a collision: the column is the old `x[15]`, and the lit pixel at row 1, column 3 goes out. -/
theorem test_draw_flag : nextWith
    (step (bytesAt { start 0xDF21 [(15, 3#8), (2, 1#8)] with I := 0x300#16, disp := Display.setPixel blankDisplay 1 3 true }
      0x300 [0xFF#8]))
    (fun t => (List.range 16).filter (Display.pixel t.disp 1) == [4, 5, 6, 7, 8, 9, 10] && t.reg 15 == 1#8) = true := by decide

/-! ### Ports (2.7) -/

/-- V-R2. -/
theorem test_construct :
    (match construct { registers := Vector.ofFn (fun i => BitVec.ofNat 8 (i.val + 1)), image := [0x60#8, 0x05#8] } with
      | .ok s => s.reg 15 == 16#8 && s.mem.read 200 == 0x60#8 && s.mem.read 202 == 0#8 &&
          nextWith (step s) (fun t => t.reg 0 == 5#8)
      | .error _ => false) = true := by decide
/-- R137. -/
theorem test_inspect : inspect (start 0 [(7, 9#8)]) 7 = .ok 9#8 ∧ inspect State.reset 16 = .error (.inspectionIndex 16) :=
  ⟨rfl, rfl⟩

/-! ### Witnesses: data that meet the hypotheses of each statement -/

theorem witness_DecodeOfEncodeIsIdentity : (Instr.draw 15 15 15).wellFormed = true := by decide
theorem witness_EncodeOfDecodeIsIdentity : decodeWord 0xD12F#16 = .ok (.draw 1 2 15) := rfl
theorem witness_DecoderFollowsOpcodeMap :
    (∃ r ∈ opcodeTable, r.selects 0x8FF7#16 = true) ∧ (∀ r ∈ opcodeTable, r.selects 0xE000#16 = false) := by decide
theorem witness_LinesAndInstructionsAgree : (AsmLine.mk .LDI [15, 255]).wellFormed = true := by decide
theorem witness_FetchIsBigEndian : ({ State.reset with pc := 4094#16 } : State).pc.toNat ≤ 4094 := by decide
theorem witness_StepRunsTheDecodedInstruction :
    State.reset.status = .running ∧ State.reset.pc.toNat ≤ 4094 ∧
      decodeWord (wordOfBytes (State.reset.mem.read State.reset.pc.toNat)
        (State.reset.mem.read (State.reset.pc.toNat + 1))) = .ok .halt := ⟨rfl, by decide, rfl⟩
theorem witness_PlacedInstructionRuns :
    State.reset.Inv ∧ State.reset.status = .running ∧ State.reset.pc.toNat ≤ 4094 ∧
      decodeTableWord 16 0x6A7F = some (.ldi 10 0x7F#8) := ⟨by unfold State.Inv; decide, rfl, by decide, rfl⟩
theorem witness_FetchOutsideMemoryIsFatal :
    ({ State.reset with pc := 4095#16 } : State).status = .running ∧ 4095 ≤ (4095#16 : Word).toNat := by decide
/-- One word for each of the seven sets of R58. -/
theorem witness_InvalidWordsAreFatal :
    (start 0x0FFF []).status = .running ∧ fetch (start 0x0FFF []) = .ok 0x0FFF#16 ∧ fieldC 0x0FFF#16 = 0x0#4 ∧
    fetch (start 0x500F []) = .ok 0x500F#16 ∧ fieldC 0x500F#16 = 0x5#4 ∧ fieldD 0x500F#16 ≠ 0x0#4 ∧
    fetch (start 0x800D []) = .ok 0x800D#16 ∧ (fieldD 0x800D#16).toNat ∈ [0x8, 0x9, 0xA, 0xB, 0xC, 0xD, 0xF] ∧
    fetch (start 0x8016 []) = .ok 0x8016#16 ∧ (fieldD 0x8016#16).toNat ∈ [0x6, 0xE] ∧ fieldY 0x8016#16 ≠ 0x0#4 ∧
    fetch (start 0x9001 []) = .ok 0x9001#16 ∧ fieldC 0x9001#16 = 0x9#4 ∧ fieldD 0x9001#16 ≠ 0x0#4 ∧
    fetch (start 0xEFFF []) = .ok 0xEFFF#16 ∧ fieldC 0xEFFF#16 = 0xE#4 ∧
    fetch (start 0xF01F []) = .ok 0xF01F#16 ∧ (fieldNN 0xF01F#16).toNat ∉ [0x1E, 0x33, 0x55, 0x65] :=
  ⟨rfl, rfl, rfl, rfl, rfl, by decide, rfl, by decide, rfl, by decide, by decide, rfl, rfl, by decide, rfl, rfl, rfl,
    by decide⟩
theorem witness_TerminalStatusHasNoStep :
    State.reset.halt.status = .halted ∧ (State.reset.raise none .stackOverflow).status =
      .faulted { a0 := 200#16, word := none, cause := .stackOverflow } := ⟨rfl, rfl⟩
theorem witness_EveryRequestIsAnswered :
    State.reset.status = .running ∧ (start 0x00E0 []).instrAt = none ∧
      (start 0x6A7F []).instrAt = some (.ldi 10 0x7F#8) ∧ (start 0x6A7F []).status = .running := by decide
/-- A fault with a word, and one without. -/
theorem witness_FaultsArePrecise :
    (∃ t f, step (start 0x00EE []) = .next t ∧ t.status = .faulted f ∧ fetch (start 0x00EE []) = .ok 0x00EE#16) ∧
    (∃ t f, step { State.reset with pc := 4095#16 } = .next t ∧ t.status = .faulted f ∧
      fetch { State.reset with pc := 4095#16 } = .error (.memoryBounds 4096)) :=
  ⟨⟨_, _, rfl, rfl, rfl⟩, ⟨_, _, rfl, rfl, rfl⟩⟩
/-- One instruction for each cause an instruction can raise. -/
theorem witness_InstructionsRaiseOnlyTheirFaults :
    (∃ t f, exec .ret State.reset = .next t ∧ t.status = .faulted f ∧ f.cause = .stackUnderflow) ∧
    (∃ t f, exec (.call 0#12) { State.reset with sp := 16 } = .next t ∧ t.status = .faulted f ∧ f.cause = .stackOverflow) ∧
    (∃ t f, exec (.dump 0) { State.reset with I := 4096#16 } = .next t ∧ t.status = .faulted f ∧
      f.cause = .memoryBounds 4096) ∧
    (∃ t f, exec (.draw 1 0 1) (State.reset.setReg 1 57#8) = .next t ∧ t.status = .faulted f ∧
      f.cause = .displayBounds 57#8 0#8 1) :=
  ⟨⟨_, _, rfl, rfl, rfl⟩, ⟨_, _, rfl, rfl, rfl⟩, ⟨_, _, rfl, rfl, rfl⟩, ⟨_, _, rfl, rfl, rfl⟩⟩
theorem witness_ConstructionGivesTheResetState :
    ({ image := List.replicate 3896 1#8 } : Launch).image.length ≤ 3896 ∧
      3896 < ({ image := List.replicate 3897 1#8 } : Launch).image.length :=
  ⟨Nat.le_of_eq List.length_replicate, Nat.lt_of_lt_of_eq (Nat.lt_succ_self 3896) List.length_replicate.symm⟩
theorem witness_InspectionReadsTheRegister : (15 : Reg).val < 16 ∧ 16 ≤ 16 := by decide
theorem witness_OnlyRandReadsTheRandomPort : (Instr.draw 0 0 0).mnemonic ≠ .RAND := by decide
theorem witness_ConstructionMeetsTheInvariant : construct {} = .ok State.reset := rfl
theorem witness_StepKeepsTheInvariant : State.reset.Inv ∧ ∃ t, step State.reset = .next t :=
  ⟨by unfold State.Inv; decide, ⟨_, rfl⟩⟩
theorem witness_HaltedRunsNeverFault : HaltsWith State.reset (fun t => t.pc = 202#16) :=
  ⟨1, _, ⟨_, rfl, rfl⟩, rfl, rfl⟩
/-- One instruction for each clause: what it names does change. -/
theorem witness_OnlyTheNamedInstructionsWrite :
    (∃ t, exec (.seti 1#12) State.reset = .next t ∧ t.I ≠ State.reset.I) ∧
    (∃ t, exec (.call 1#12) State.reset = .next t ∧ t.stack ≠ State.reset.stack ∧ t.sp ≠ State.reset.sp) ∧
    (∃ t, exec (.dump 0) { State.reset.setReg 0 1#8 with I := 0x300#16 } = .next t ∧ t.mem ≠ State.reset.mem) ∧
    (∃ t, exec (.draw 0 0 1) (bytesAt { State.reset with I := 0x300#16 } 0x300 [0x80#8]) = .next t ∧
      t.disp ≠ State.reset.disp) ∧
    (∃ t, exec .halt State.reset = .next t ∧ State.reset.status = .running ∧ t.status = .halted) :=
  ⟨⟨_, rfl, by decide⟩, ⟨_, rfl, by decide, by decide⟩, ⟨_, rfl, by decide⟩, ⟨_, rfl, by decide⟩, ⟨_, rfl, rfl, rfl⟩⟩
theorem witness_MemoriesThatReadTheSameAreEqual :
    Memory.wf [(200, 1#8), (0x300, 2#8)] = true ∧ ∀ a, Memory.read [(200, 1#8)] a = Memory.read [(200, 1#8)] a :=
  ⟨by decide, fun _ => rfl⟩
theorem witness_HaltStopsTheCore :
    (0x0FFF#16 : Word).toNat ≤ 0x0FFF ∧ 0x0FFF#16 ≠ 0x0000#16 ∧ 0x0FFF#16 ≠ 0x00EE#16 := by decide
theorem witness_CallPushesAndJumps :
    (({ State.reset with sp := 15 } : State).sp.val < 16) ∧ ({ State.reset with sp := 16 } : State).sp.val = 16 := by decide
theorem witness_RetReturnsToTheSavedPc :
    0 < ({ State.reset with sp := 16 } : State).sp.val ∧ State.reset.sp.val = 0 ∧
      ({ State.reset with sp := 15 } : State).sp.val < 16 := by decide
theorem witness_ImmediateSkipsCompare : State.reset.reg 15 = 0#8 ∧ State.reset.reg 15 ≠ 255#8 := by decide
theorem witness_RegisterSkipsCompare :
    (start 0 [(1, 7#8), (2, 7#8)]).reg 1 = (start 0 [(1, 7#8), (2, 7#8)]).reg 2 ∧
      (start 0 [(1, 7#8)]).reg 1 ≠ (start 0 [(1, 7#8)]).reg 2 ∧ fieldC 0x5001#16 = 0x5#4 ∧ fieldD 0x5001#16 ≠ 0x0#4 ∧
      fieldC 0x900F#16 = 0x9#4 ∧ fieldD 0x900F#16 ≠ 0x0#4 := by decide
/-- Adding 256 - 255 takes 255 away from a register that holds 255. -/
theorem witness_AddiAddsWithoutFlag :
    1 ≤ 255 ∧ 255 ≤ 255 ∧ (1#8 : Byte).toNat = 256 - 255 ∧ 255 ≤ ((start 0 [(2, 255#8)]).reg 2).toNat ∧ (2 : Reg) ≠ 15 := by
  decide
theorem witness_LdiLoadsTheImmediate : (14 : Reg) ≠ 15 := by decide
theorem witness_MovCopiesARegister : (14 : Reg) ≠ 15 ∧ (3 : Reg) = 3 := by decide
theorem witness_LogicWorksBitByBit : 7 < 8 ∧ (14 : Reg) ≠ 15 ∧ (3 : Reg) = 3 := by decide
/-- A sum of 255 and one of 256, both with a destination other than the flag. -/
theorem witness_AddGivesSumAndCarry :
    (14 : Reg) ≠ 15 ∧ ¬ 256 ≤ ((start 0 [(14, 255#8)]).reg 14).toNat + (State.reset.reg 0).toNat ∧
      256 ≤ ((start 0 [(14, 255#8), (0, 1#8)]).reg 14).toNat + ((start 0 [(14, 255#8), (0, 1#8)]).reg 0).toNat := by decide
/-- Equal operands, and a borrow of one. -/
theorem witness_SubGivesDifferenceAndNoBorrow :
    (14 : Reg) ≠ 15 ∧ (State.reset.reg 0).toNat ≤ (State.reset.reg 14).toNat ∧
      ¬ ((start 0 [(0, 1#8)]).reg 0).toNat ≤ ((start 0 [(0, 1#8)]).reg 14).toNat := by decide
theorem witness_SubrSubtractsTheOtherWay :
    (14 : Reg) ≠ 15 ∧ (State.reset.reg 14).toNat ≤ (State.reset.reg 0).toNat ∧
      ¬ ((start 0 [(14, 1#8)]).reg 14).toNat ≤ ((start 0 [(14, 1#8)]).reg 0).toNat := by decide
theorem witness_ShrShiftsRightByOne : (14 : Reg) ≠ 15 ∧ (0 < 7 ∧ 6 < 7) := by decide
theorem witness_ShlShiftsLeftByOne : (14 : Reg) ≠ 15 ∧ (0 < 7 ∧ 6 < 7) := by decide
theorem witness_RandMasksAFreshByte :
    (State.reset.offer [0xA7#8]).random.offered = 0xA7#8 :: [] ∧ 0x0F#8 &&& ~~~0x0F#8 = 0#8 := by decide
/-- `DUMP`, `LOAD`, and the two one after the other, up to the last byte of memory. -/
theorem witness_DumpStoresTheRegisters :
    ({ State.reset with I := 4080#16 } : State).Inv ∧ (4080#16 : Word).toNat + (15 : Reg).val ≤ 4095 :=
  ⟨by unfold State.Inv; decide, by decide⟩
theorem witness_LoadFillsTheRegisters : (4080#16 : Word).toNat + (15 : Reg).val ≤ 4095 := by decide
theorem witness_DumpThenLoadRestores :
    ({ State.reset with I := 4095#16 } : State).Inv ∧ (4095#16 : Word).toNat + (0 : Reg).val ≤ 4095 :=
  ⟨by unfold State.Inv; decide, by decide⟩
theorem witness_BcdStoresTheDigits :
    ({ State.reset with I := 4093#16 } : State).Inv ∧ (4093#16 : Word).toNat + 2 ≤ 4095 :=
  ⟨by unfold State.Inv; decide, by decide⟩
theorem witness_AccessOutsideMemoryIsFatal :
    4096 ≤ (4081#16 : Word).toNat + (15 : Reg).val ∧ 4096 ≤ (4094#16 : Word).toNat + 2 := by decide
theorem witness_StoredBytesAreFetchedNext :
    State.reset.Inv ∧ 1 ≤ (1 : Reg).val ∧ ({ State.reset with I := 202#16 } : State).I = State.reset.pc + 2#16 ∧
      (202#16 : Word).toNat + (1 : Reg).val ≤ 4095 ∧ State.reset.pc.toNat ≤ 4094 :=
  ⟨by unfold State.Inv; decide, by decide, by decide, by decide, by decide⟩
/-- A sprite in the bottom right corner whose last byte is the last of memory. -/
theorem witness_DrawTogglesTheSprite :
    (4081#16 : Word).toNat + (15 : Fin 16).val ≤ 4096 ∧ ((start 0 [(1, 56#8), (2, 17#8)]).reg 1).toNat ≤ 56 ∧
      ((start 0 [(1, 56#8), (2, 17#8)]).reg 2).toNat + (15 : Fin 16).val ≤ 32 ∧ (1 : Reg) ≠ 15 ∧ (2 : Reg) ≠ 15 := by decide
/-- One step past each bound: the last sprite byte, the column, the row. -/
theorem witness_DrawOutsideIsFatal :
    1 ≤ (1 : Fin 16).val ∧ 4096 < (4096#16 : Word).toNat + (1 : Fin 16).val ∧
      (4095#16 : Word).toNat + (1 : Fin 16).val ≤ 4096 ∧ 56 < ((start 0 [(1, 57#8)]).reg 1).toNat ∧
      32 < ((start 0 [(2, 32#8)]).reg 2).toNat + (1 : Fin 16).val := by decide
theorem witness_DrawTwiceRestoresTheDisplay : (1 : Reg) ≠ 15 ∧ (2 : Reg) ≠ 15 ∧ (0 : Fin 16).val = 0 := by decide
theorem witness_FrameOfJumpsAndSkips :
    (Instr.skne 0 0).mnemonic ∈ [Mnemonic.HALT, .JUMP, .JUMPV0, .SKEQI, .SKNEI, .SKEQ, .SKNE] ∧
      ∃ t, exec (.skne 0 0) State.reset = .next t := ⟨by decide, ⟨_, rfl⟩⟩
theorem witness_FrameOfCallAndRet :
    (Instr.call 0#12).mnemonic ∈ [Mnemonic.CALL, .RET] ∧ (1 : Fin 16).val ≠ State.reset.sp.val ∧
      (∃ t, exec (.call 0#12) State.reset = .next t) ∧ ∃ t, exec .ret { State.reset with sp := 1 } = .next t :=
  ⟨by decide, by decide, ⟨_, rfl⟩, ⟨_, rfl⟩⟩
theorem witness_FrameOfTheAluFamily :
    (∃ t, exec (.mov 1 2) State.reset = .next t) ∧ (∃ t, exec (.shl 1) State.reset = .next t) ∧
      (∃ t, exec (.rand 1 3#8) State.reset = .next t) ∧ (Instr.shl 1) ≠ .rand 1 3#8 :=
  ⟨⟨_, rfl⟩, ⟨_, rfl⟩, ⟨_, rfl⟩, by decide⟩
theorem witness_FrameOfTheAddressRegister :
    (Instr.adda 15).mnemonic ∈ [Mnemonic.SETI, .ADDA] ∧ ∃ t, exec (.adda 15) State.reset = .next t := ⟨by decide, ⟨_, rfl⟩⟩
theorem witness_FrameOfTheStores :
    ({ State.reset with I := 4093#16 } : State).Inv ∧ (∃ t, exec (.dump 2) { State.reset with I := 4093#16 } = .next t) ∧
      (∃ t, exec (.bcd 2) { State.reset with I := 4093#16 } = .next t) ∧
      ({ State.reset with I := 4093#16 } : State).effAddr 0 = 4093 :=
  ⟨by unfold State.Inv; decide, ⟨_, rfl⟩, ⟨_, rfl⟩, rfl⟩
theorem witness_FrameOfLoadAndDraw :
    (∃ t, exec (.load 15) { State.reset with I := 4080#16 } = .next t) ∧
      (∃ t, exec (.draw 1 1 15) (State.reset.setReg 1 17#8) = .next t) ∧
      ((State.reset.setReg 1 17#8).reg 1).toNat + (15 : Fin 16).val ≤ 32 := ⟨⟨_, rfl⟩, ⟨_, rfl⟩, by decide⟩

end Sys2Proof.Tests
end

section
/-!
SUPPORT. The frames (spec/00_scope.md R9, decision D14): what an instruction leaves as it was. For each family one lemma
says in which form its next state can be; the frame is then read off that form.
-/

namespace Sys2Proof.Machine

variable {s t u : State}

/-! ### From equal fields to what two states share -/

theorem SameRegs.of_regs (h : t.regs = s.regs) : SameRegs s t := fun r => by
  rw [State.reg_eq, State.reg_eq, h]

theorem SameRegs.but (h : SameRegs s t) (written : Reg → Prop) : SameRegsBut written s t := fun r _ => h r

theorem SameStack.of_fields (hsp : t.sp = s.sp) (hstack : t.stack = s.stack) : SameStack s t :=
  ⟨hsp, fun k => by rw [State.slot, State.slot, hstack]⟩

theorem SameMemory.of_mem (h : t.mem = s.mem) : SameMemory s t := fun a => by rw [h]

theorem SameMemory.but (h : SameMemory s t) (base n : Nat) : SameMemoryBut base n s t := fun a _ => h a

theorem SameDisplay.of_disp (h : t.disp = s.disp) : SameDisplay s t := fun r _ c _ => by rw [h]

theorem SameStatusOrFault.raise (s : State) (w : Option Word) (c : FatalCause) : SameStatusOrFault s (s.raise w c) :=
  .inr ⟨_, s.raise_status w c⟩

/-- An outcome has one next state. -/
theorem next_unique {o : Host.Outcome State Fault Refusal} (hu : o = .next u) (ht : o = .next t) : t = u :=
  Host.Outcome.next.inj (ht.symm.trans hu)

/-! ### Jumps and skips -/

/-- `HALT` sets the latch; the jumps and the skips only choose the next `pc` (R71, R72, R75, R80). -/
theorem exec_jumpOrSkip_cases (i : Instr) (s : State)
    (hi : i.mnemonic ∈ [.HALT, .JUMP, .JUMPV0, .SKEQI, .SKNEI, .SKEQ, .SKNE]) :
    (i = .halt ∧ exec i s = .next s.advance.halt) ∨ ∃ target, exec i s = .next (s.jumpTo target) := by
  cases i with
  | halt => exact .inl ⟨rfl, rfl⟩
  | jump nnn => exact .inr ⟨_, rfl⟩
  | jumpv0 nnn => exact .inr ⟨_, rfl⟩
  | skeqi x nn => exact .inr ⟨_, skip_eq s _⟩
  | sknei x nn => exact .inr ⟨_, skip_eq s _⟩
  | skeq x y => exact .inr ⟨_, skip_eq s _⟩
  | skne x y => exact .inr ⟨_, skip_eq s _⟩
  | _ => simp [Instr.mnemonic] at hi

/-- Settles O52: the two forms of `exec_jumpOrSkip_cases` write `pc` and the latch, and only `HALT` the latch. -/
theorem frameOfJumpsAndSkips : Obligations.FrameOfJumpsAndSkips := by
  intro i s t hi ht
  rcases exec_jumpOrSkip_cases i s hi with ⟨rfl, e⟩ | ⟨target, e⟩
  · obtain rfl := next_unique e ht
    exact ⟨SameRegs.of_regs rfl, rfl, SameStack.of_fields rfl rfl, SameMemory.of_mem rfl, SameDisplay.of_disp rfl, rfl,
      fun hne => absurd rfl hne⟩
  · obtain rfl := next_unique e ht
    exact ⟨SameRegs.of_regs rfl, rfl, SameStack.of_fields rfl rfl, SameMemory.of_mem rfl, SameDisplay.of_disp rfl, rfl,
      fun _ => rfl⟩

/-! ### CALL and RET -/

/-- `CALL` and `RET` write `pc`, the stack and its pointer, or record a fault (R73, R74). -/
theorem exec_callOrRet_cases (i : Instr) (s : State) (hi : i.mnemonic ∈ [.CALL, .RET]) :
    (∃ w c, exec i s = .next (s.raise w c)) ∨
    ∃ stack sp pc, exec i s = .next { s with stack := stack, sp := sp, pc := pc } ∧
      ∀ k : Fin 16, (i = .ret ∨ k.val ≠ s.sp.val) → stack[k] = s.slot k := by
  cases i with
  | call nnn =>
    rcases execCall_cases nnn s with ⟨_, e⟩ | ⟨hsp, e⟩
    · exact .inl ⟨_, _, e⟩
    · refine .inr ⟨_, _, _, e, fun k hk => ?_⟩
      have hne : k ≠ ⟨s.sp.val, hsp⟩ := fun h => hk.elim (by simp) (absurd (congrArg Fin.val h))
      exact (slot_set s.stack ⟨s.sp.val, hsp⟩ k _).trans (if_neg hne)
  | ret =>
    rcases execRet_cases s with ⟨_, e⟩ | ⟨_, e⟩
    · exact .inl ⟨_, _, e⟩
    · exact .inr ⟨_, _, _, e, fun _ _ => rfl⟩
  | _ => simp [Instr.mnemonic] at hi

/-- Settles O53: `exec_callOrRet_cases` names what is written, and a slot that `CALL` does not name keeps its word. -/
theorem frameOfCallAndRet : Obligations.FrameOfCallAndRet := by
  intro i s t hi ht
  rcases exec_callOrRet_cases i s hi with ⟨w, c, e⟩ | ⟨stack, sp, pc, e, hslot⟩
  · obtain rfl := next_unique e ht
    exact ⟨SameRegs.of_regs rfl, rfl, SameMemory.of_mem rfl, SameDisplay.of_disp rfl, rfl,
      SameStatusOrFault.raise s w c, fun _ _ => rfl⟩
  · obtain rfl := next_unique e ht
    exact ⟨SameRegs.of_regs rfl, rfl, SameMemory.of_mem rfl, SameDisplay.of_disp rfl, rfl, .inl rfl, hslot⟩

/-! ### The ALU family -/

/-- The instructions that write `x[x]` and no flag (R92 to R97). -/
def resultInstrs (x y : Reg) (nn : Byte) : List Instr :=
  [.ldi x nn, .addi x nn, .mov x y, .or x y, .and x y, .xor x y]

/-- The instructions that write `x[x]` and then the flag (R98 to R102). -/
def flagInstrs (x y : Reg) : List Instr := [.add x y, .sub x y, .subr x y, .shr x, .shl x]

theorem exec_resultInstrs {x y : Reg} {nn : Byte} {i : Instr} (s : State) (hi : i ∈ resultInstrs x y nn) :
    ∃ v, exec i s = .next (s.finish x v) := by
  simp only [resultInstrs, List.mem_cons, List.not_mem_nil, or_false] at hi
  rcases hi with rfl | rfl | rfl | rfl | rfl | rfl <;> exact ⟨_, rfl⟩

theorem exec_flagInstrs {x y : Reg} {i : Instr} (s : State) (hi : i ∈ flagInstrs x y) :
    ∃ v flag, exec i s = .next (s.finishWithFlag x v flag) := by
  simp only [flagInstrs, List.mem_cons, List.not_mem_nil, or_false] at hi
  rcases hi with rfl | rfl | rfl | rfl | rfl <;> exact ⟨_, _, rfl⟩

theorem exec_rand (x : Reg) (nn : Byte) (s : State) :
    exec (.rand x nn) s =
      .next { s.finish reg0 (nn &&& s.random.draw.1) with random := s.random.draw.2 } := rfl

theorem State.finish_sameRegsBut (s : State) (r : Reg) (v : Byte) : SameRegsBut (· = r) s (s.finish r v) :=
  fun r' hr => by rw [State.reg_finish, if_neg hr]

theorem State.finishWithFlag_sameRegsBut (s : State) (r : Reg) (v flag : Byte) :
    SameRegsBut (fun r' => r' = r ∨ r' = 15) s (s.finishWithFlag r v flag) := fun r' hr => by
  obtain ⟨hres, hflag⟩ := not_or.mp hr
  rw [State.reg_finishWithFlag, if_neg hflag, if_neg hres]

/-- An instruction of the ALU family writes registers and `pc`, and `RAND` the random port too. -/
theorem exec_alu_form {x y : Reg} {nn : Byte} {i : Instr} (s : State)
    (hi : i ∈ resultInstrs x y nn ++ (flagInstrs x y ++ [.rand x nn])) :
    ∃ regs random, exec i s = .next { s.advance with regs := regs, random := random } ∧
      (i ≠ .rand x nn → random = s.random) := by
  rcases List.mem_append.mp hi with hres | hi
  · obtain ⟨v, e⟩ := exec_resultInstrs s hres
    exact ⟨_, _, e, fun _ => rfl⟩
  rcases List.mem_append.mp hi with hflag | hrand
  · obtain ⟨v, flag, e⟩ := exec_flagInstrs s hflag
    exact ⟨_, _, e, fun _ => rfl⟩
  · obtain rfl := List.mem_singleton.mp hrand
    exact ⟨_, _, exec_rand x nn s, fun hne => absurd rfl hne⟩

/-- Settles O54: the registers by the kind of the instruction, the rest by the form all twelve share. -/
theorem frameOfTheAluFamily : Obligations.FrameOfTheAluFamily := by
  intro x y nn i s t ht
  refine ⟨⟨fun hi => ?_, fun hi => ?_, fun hi => ?_⟩, fun hi => ?_⟩
  · obtain ⟨v, e⟩ := exec_resultInstrs s hi
    exact next_unique e ht ▸ s.finish_sameRegsBut x v
  · obtain ⟨v, flag, e⟩ := exec_flagInstrs s hi
    exact next_unique e ht ▸ s.finishWithFlag_sameRegsBut x v flag
  · subst hi
    exact next_unique (exec_rand x nn s) ht ▸ s.finish_sameRegsBut reg0 _
  · obtain ⟨regs, random, e, hrandom⟩ := exec_alu_form s hi
    obtain rfl := next_unique e ht
    exact ⟨rfl, SameStack.of_fields rfl rfl, SameMemory.of_mem rfl, SameDisplay.of_disp rfl, rfl, hrandom⟩

/-! ### The address register -/

/-- `SETI` and `ADDA` write `I` and `pc` (R111, R112). -/
theorem exec_addressRegister_form (i : Instr) (s : State) (hi : i.mnemonic ∈ [.SETI, .ADDA]) :
    ∃ v, exec i s = .next { s.advance with I := v } := by
  cases i with
  | seti nnn => exact ⟨_, rfl⟩
  | adda x => exact ⟨_, rfl⟩
  | _ => simp [Instr.mnemonic] at hi

/-- Settles O55: read off `exec_addressRegister_form`. -/
theorem frameOfTheAddressRegister : Obligations.FrameOfTheAddressRegister := by
  intro i s t hi ht
  obtain ⟨v, e⟩ := exec_addressRegister_form i s hi
  obtain rfl := next_unique e ht
  exact ⟨SameRegs.of_regs rfl, SameStack.of_fields rfl rfl, SameMemory.of_mem rfl, SameDisplay.of_disp rfl, rfl, rfl⟩

/-! ### The stores -/

/-- `t` is `s` with a fault recorded, or with `pc` advanced and `n` bytes stored from `I` on, all inside memory. -/
def RaisedOrStored (n : Nat) (s t : State) : Prop :=
  (∃ w c, t = s.raise w c) ∨
  ∃ bytes : List Byte, bytes.length = n ∧ s.I.toNat + n ≤ Config.memSize ∧
    t = { s.advance with mem := s.mem.store s.I.toNat bytes }

theorem RaisedOrStored.of_dump {x : Reg} (h : exec (.dump x) s = .next t) : RaisedOrStored (x.val + 1) s t := by
  rcases execDump_cases x s with ⟨_, e⟩ | ⟨hin, e⟩
  · exact .inl ⟨_, _, next_unique e h⟩
  · exact .inr ⟨_, s.firstRegs_length x, by simp only [Config.memSize]; omega, next_unique e h⟩

theorem RaisedOrStored.of_bcd {x : Reg} (h : exec (.bcd x) s = .next t) : RaisedOrStored 3 s t := by
  rcases execBcd_cases x s with ⟨_, e⟩ | ⟨hin, e⟩
  · exact .inl ⟨_, _, next_unique e h⟩
  · exact .inr ⟨_, rfl, by simp only [Config.memSize]; omega, next_unique e h⟩

/-- Outside the `n` bytes from `I` memory is as before; that the list is canonical is what makes a read see the store. -/
theorem RaisedOrStored.sameMemoryBut {n : Nat} (h : RaisedOrStored n s t) (hwf : s.mem.wf = true) :
    SameMemoryBut (s.effAddr 0) n s t := by
  rcases h with ⟨w, c, rfl⟩ | ⟨bytes, rfl, hin, rfl⟩
  · exact (SameMemory.of_mem rfl).but _ _
  · intro a ha
    have hout : ¬ (s.I.toNat ≤ a ∧ a < s.I.toNat + bytes.length) := by
      simp only [State.effAddr] at ha; omega
    exact (Memory.read_store bytes s.mem s.I.toNat a hin hwf).trans (if_neg hout)

theorem RaisedOrStored.frame {n : Nat} (h : RaisedOrStored n s t) :
    SameRegs s t ∧ t.I = s.I ∧ SameStack s t ∧ SameDisplay s t ∧ t.random = s.random ∧ SameStatusOrFault s t := by
  rcases h with ⟨w, c, rfl⟩ | ⟨bytes, _, _, rfl⟩
  · exact ⟨SameRegs.of_regs rfl, rfl, SameStack.of_fields rfl rfl, SameDisplay.of_disp rfl, rfl,
      SameStatusOrFault.raise s w c⟩
  · exact ⟨SameRegs.of_regs rfl, rfl, SameStack.of_fields rfl rfl, SameDisplay.of_disp rfl, rfl, .inl rfl⟩

/-- Settles O56: `DUMP` and `BCD` end as `RaisedOrStored` says. -/
theorem frameOfTheStores : Obligations.FrameOfTheStores := by
  rintro x s t ⟨hwf, -, -⟩
  refine ⟨?_, ?_, ?_⟩
  · rintro h a rfl; exact (RaisedOrStored.of_dump h).sameMemoryBut hwf
  · rintro h a rfl; exact (RaisedOrStored.of_bcd h).sameMemoryBut hwf
  · rintro (h | h)
    · exact (RaisedOrStored.of_dump h).frame
    · exact (RaisedOrStored.of_bcd h).frame

/-! ### LOAD and DRAW -/

/-- `t` is `s` with a fault recorded, or with `pc` advanced and registers and display rewritten. -/
def RaisedOrRewritten (regs : Vector Byte 16) (disp : Display) (s t : State) : Prop :=
  (∃ w c, t = s.raise w c) ∨ t = { s.advance with regs := regs, disp := disp }

theorem RaisedOrRewritten.frame {regs : Vector Byte 16} {disp : Display} (h : RaisedOrRewritten regs disp s t) :
    t.I = s.I ∧ SameStack s t ∧ SameMemory s t ∧ t.random = s.random ∧ SameStatusOrFault s t := by
  rcases h with ⟨w, c, rfl⟩ | rfl
  · exact ⟨rfl, SameStack.of_fields rfl rfl, SameMemory.of_mem rfl, rfl, SameStatusOrFault.raise s w c⟩
  · exact ⟨rfl, SameStack.of_fields rfl rfl, SameMemory.of_mem rfl, rfl, .inl rfl⟩

/-- `LOAD` rewrites the registers by its loop and leaves the display (R114). -/
theorem RaisedOrRewritten.of_load {x : Reg} (h : exec (.load x) s = .next t) :
    RaisedOrRewritten (loadRegs s.mem s.I.toNat s.regs (x.val + 1)) s.disp s t := by
  rcases execLoad_cases x s with ⟨_, e⟩ | ⟨_, e⟩
  · exact .inl ⟨_, _, next_unique e h⟩
  · exact .inr (next_unique e h)

/-- `DRAW` rewrites the flag and the display, when its rectangle is empty or lies on the display (R122, R123). -/
theorem execDraw_ends {x y : Reg} {d : Fin 16} (h : exec (.draw x y d) s = .next t) :
    (∃ w c, t = s.raise w c) ∨
    (d.val = 0 ∨ (s.reg x).toNat ≤ 56 ∧ (s.reg y).toNat + d.val ≤ 32) ∧
      t = { s.finish flagReg (collisionFlag (s.drawing x y d.val)) with disp := (s.drawing x y d.val).disp } := by
  rcases execDraw_cases x y d s with ⟨_, e⟩ | ⟨_, e⟩ | ⟨hin, e⟩
  · exact .inl ⟨_, _, next_unique e h⟩
  · exact .inl ⟨_, _, next_unique e h⟩
  · exact .inr ⟨hin.imp_right fun ⟨_, hrect⟩ => hrect, next_unique e h⟩

theorem RaisedOrRewritten.of_draw {x y : Reg} {d : Fin 16} (h : exec (.draw x y d) s = .next t) :
    RaisedOrRewritten (s.regs.set flagReg (collisionFlag (s.drawing x y d.val))) (s.drawing x y d.val).disp s t :=
  (execDraw_ends h).imp_right fun ⟨_, e⟩ => e

/-- A sprite drawn on the display leaves every pixel outside its rectangle (R123). -/
theorem State.drawing_pixel_outside (s : State) (x y : Reg) (d r c : Nat)
    (hrect : d = 0 ∨ (s.reg x).toNat ≤ 56 ∧ (s.reg y).toNat + d ≤ 32)
    (hout : r < (s.reg y).toNat ∨ (s.reg y).toNat + d ≤ r ∨ c < (s.reg x).toNat ∨ (s.reg x).toNat + 8 ≤ c) :
    Display.pixel (s.drawing x y d).disp r c = Display.pixel s.disp r c := by
  rcases hrect with rfl | ⟨hx, hy⟩
  · rfl
  · have hnot : ¬ ((s.reg y).toNat ≤ r ∧ r < (s.reg y).toNat + d ∧
        (s.reg x).toNat ≤ c ∧ c < (s.reg x).toNat + 8) := by omega
    rw [State.drawing, drawRows_pixel _ _ _ _ _ _ _ _ hy (by omega)]
    simp only [hnot, decide_false, Bool.false_and, Bool.xor_false]

/-- `LOAD` leaves the registers above `x` (R114). -/
theorem load_sameRegsBut {x : Reg} (h : exec (.load x) s = .next t) :
    SameRegsBut (fun k => k.val ≤ x.val) s t := by
  rcases RaisedOrRewritten.of_load h with ⟨w, c, rfl⟩ | rfl
  · exact (SameRegs.of_regs rfl).but _
  · intro r hr
    exact (loadRegs_get s.mem s.I.toNat s.regs (x.val + 1) r).trans (if_neg (by omega))

theorem load_sameDisplay {x : Reg} (h : exec (.load x) s = .next t) : SameDisplay s t := by
  rcases RaisedOrRewritten.of_load h with ⟨w, c, rfl⟩ | rfl
  · exact SameDisplay.of_disp rfl
  · exact SameDisplay.of_disp rfl

theorem draw_sameRegsBut {x y : Reg} {d : Fin 16} (h : exec (.draw x y d) s = .next t) :
    SameRegsBut (· = 15) s t := by
  rcases execDraw_ends h with ⟨w, c, rfl⟩ | ⟨_, rfl⟩
  · exact (SameRegs.of_regs rfl).but _
  · exact s.finish_sameRegsBut flagReg _

theorem draw_pixel_outside {x y : Reg} {d : Fin 16} {r c : Nat} (h : exec (.draw x y d) s = .next t)
    (hout : r < (s.reg y).toNat ∨ (s.reg y).toNat + d.val ≤ r ∨ c < (s.reg x).toNat ∨ (s.reg x).toNat + 8 ≤ c) :
    Display.pixel t.disp r c = Display.pixel s.disp r c := by
  rcases execDraw_ends h with ⟨w, cause, rfl⟩ | ⟨hrect, rfl⟩
  · rfl
  · exact s.drawing_pixel_outside x y d.val r c hrect hout

/-- Settles O57: the registers and pixels each leaves, and the frame of the form both end in. -/
theorem frameOfLoadAndDraw : Obligations.FrameOfLoadAndDraw := by
  intro x y d s t
  refine ⟨fun h => ⟨load_sameRegsBut h, load_sameDisplay h⟩,
    fun h => ⟨draw_sameRegsBut h, fun r _ c _ hout => draw_pixel_outside h hout⟩, ?_⟩
  rintro (h | h)
  · exact (RaisedOrRewritten.of_load h).frame
  · exact (RaisedOrRewritten.of_draw h).frame

end Sys2Proof.Machine
end

section
/-!
SUPPORT. Construction, the canonical memory, the invariant of spec/10_state.md R25 and who writes what. One lemma says in
which forms the next state of an instruction can be; the invariant and the writer rule are read off it.
-/

namespace Sys2Proof.Machine

variable {i : Instr} {s t : State}

/-! ### The canonical memory is determined by its reads (R20, R30) -/

/-- The first listed byte shows in a read, so a memory that reads the same does not lie wholly above its address. -/
theorem Memory.not_above_head {a : Nat} {v : Byte} {rest n : Memory} (hwf : Memory.wf ((a, v) :: rest) = true)
    (hread : ∀ b, Memory.read ((a, v) :: rest) b = n.read b) : ¬ ∀ c ∈ n, a < c.1 := by
  intro habove
  obtain ⟨-, hv, -, -⟩ := (Memory.wf_cons a v rest).mp hwf
  have hhead : Memory.read ((a, v) :: rest) a = v := if_pos rfl
  exact hv (hhead.symm.trans ((hread a).trans (Memory.read_of_below n a habove)))

/-- Every address of a canonical list is at or above the first. -/
theorem Memory.above_of_lt_head {a b : Nat} {v : Byte} {rest : Memory} (hwf : Memory.wf ((b, v) :: rest) = true)
    (hab : a < b) : ∀ c ∈ (b, v) :: rest, a < c.1 := by
  obtain ⟨-, -, habove, -⟩ := (Memory.wf_cons b v rest).mp hwf
  intro c hc
  rcases List.mem_cons.mp hc with rfl | hc
  · exact hab
  · exact hab.trans (habove c hc)

/-- Memories with the same first entry that read the same have tails that read the same. -/
theorem Memory.tail_reads {a : Nat} {v : Byte} {m n : Memory} (hm : ∀ c ∈ m, a < c.1) (hn : ∀ c ∈ n, a < c.1)
    (hread : ∀ b, Memory.read ((a, v) :: m) b = Memory.read ((a, v) :: n) b) (b : Nat) : m.read b = n.read b := by
  by_cases hb : b = a
  · subst hb
    rw [Memory.read_of_below m b hm, Memory.read_of_below n b hn]
  · simpa [Memory.read, hb] using hread b

/-- Settles O23: the first entries agree, since a smaller first address would show in a read, and then the tails do. -/
theorem memoriesThatReadTheSameAreEqual : Obligations.MemoriesThatReadTheSameAreEqual := by
  intro m
  induction m with
  | nil =>
    intro n _ hn hread
    cases n with
    | nil => rfl
    | cons d n => exact absurd (by simp) (Memory.not_above_head hn fun b => (hread b).symm)
  | cons c m ih =>
    intro n hm hn hread
    cases n with
    | nil => exact absurd (by simp) (Memory.not_above_head hm hread)
    | cons d n =>
      obtain ⟨a, v⟩ := c
      obtain ⟨b, w⟩ := d
      have hba : ¬ a < b := fun h => Memory.not_above_head hm hread (Memory.above_of_lt_head hn h)
      have hab : ¬ b < a := fun h =>
        Memory.not_above_head hn (fun x => (hread x).symm) (Memory.above_of_lt_head hm h)
      obtain rfl : a = b := by omega
      obtain rfl : v = w := by simpa [Memory.read] using hread a
      obtain ⟨-, -, hma, hm⟩ := (Memory.wf_cons a v m).mp hm
      obtain ⟨-, -, hna, hn⟩ := (Memory.wf_cons a v n).mp hn
      rw [ih n hm hn (Memory.tail_reads hma hna hread)]

/-! ### Construction (R26, R160, R161) -/

/-- The state of a launch whose image fits (R160). -/
def Launch.initialState (l : Launch) : State :=
  { State.reset with
    regs := l.registers
    mem := State.reset.mem.store 200 l.image
    disp := l.display }

theorem construct_of_le {l : Launch} (h : l.image.length ≤ 3896) : construct l = .ok l.initialState := if_pos h

theorem construct_of_lt {l : Launch} (h : 3896 < l.image.length) :
    construct l = .error (.imageTooLong l.image.length) := if_neg (by simp only [Config.maxProgramLen]; omega)

theorem Memory.unlisted_of_lt {a : Nat} (h : a < 80) : Memory.unlisted a = Config.glyphByte a := if_pos h

theorem Memory.unlisted_of_le {a : Nat} (h : 80 ≤ a) : Memory.unlisted a = 0#8 := if_neg (Nat.not_lt.mpr h)

/-- Everything memory reads after construction: the image from 200, the contents at reset elsewhere (R20, R160). -/
theorem Launch.read_initialState {l : Launch} (h : l.image.length ≤ 3896) (a : Nat) :
    l.initialState.mem.read a =
      if 200 ≤ a ∧ a < 200 + l.image.length then l.image.getD (a - 200) 0#8 else Memory.unlisted a :=
  Memory.read_store l.image State.reset.mem 200 a (by simp only [Config.memSize]; omega) rfl

/-- Settles O15: `construct` by the length of the image, and the memory by `Launch.read_initialState`. -/
theorem constructionGivesTheResetState : Obligations.ConstructionGivesTheResetState := by
  refine ⟨rfl, fun l => ⟨construct_of_lt, fun h => ⟨l.initialState, construct_of_le h, fun _ => rfl, rfl, rfl, rfl,
    fun k => Vector.getElem_replicate k.isLt, rfl, rfl, fun a ha => ?_, fun a hlo hhi => ?_, fun k hk => ?_,
    fun a ha => ?_⟩⟩⟩
  · rw [l.read_initialState h, if_neg (by omega), Memory.unlisted_of_lt ha]
  · rw [l.read_initialState h, if_neg (by omega), Memory.unlisted_of_le hlo]
  · rw [l.read_initialState h, if_pos (by omega), Nat.add_sub_cancel_left, List.getD_eq_getElem _ _ hk]
  · rw [l.read_initialState h, if_neg (by omega), Memory.unlisted_of_le (by omega)]

/-! ### The invariant at the start (R25) -/

/-- With the stack as it was, the invariant is about memory and `pc`. -/
theorem State.Inv.of_sameStack (hs : s.Inv) (hmem : t.mem.wf = true) (hpc : t.pc.toNat ≤ 4350)
    (hstack : SameStack s t) : t.Inv := by
  obtain ⟨-, -, hslots⟩ := hs
  obtain ⟨hsp, hslot⟩ := hstack
  refine ⟨hmem, hpc, fun k hk => ?_⟩
  rw [hslot k]
  exact hslots k (hsp ▸ hk)

/-- Settles O18: nothing is listed, `pc` is 200, and no slot is in use. -/
theorem resetMeetsTheInvariant : Obligations.ResetMeetsTheInvariant :=
  ⟨rfl, by decide, fun _ hk => absurd hk (Nat.not_lt_zero _)⟩

/-- Settles O19: construction changes the reset state's memory, by a store inside it, and leaves its stack and `pc`. -/
theorem constructionMeetsTheInvariant : Obligations.ConstructionMeetsTheInvariant := by
  intro l s hs
  by_cases h : l.image.length ≤ 3896
  · obtain rfl : l.initialState = s := Except.ok.inj ((construct_of_le h).symm.trans hs)
    have hmem : l.initialState.mem.wf = true :=
      Memory.wf_store l.image State.reset.mem 200 (by simp only [Config.memSize]; omega) rfl
    obtain ⟨-, hpc, -⟩ := resetMeetsTheInvariant
    exact State.Inv.of_sameStack resetMeetsTheInvariant hmem hpc (SameStack.of_fields rfl rfl)
  · rw [construct_of_lt (by omega)] at hs
    cases hs

/-! ### The forms of an instruction's next state -/

/-- `t` is a next state of `i` from `s`, as far as the invariant and the writer rule look: which fields may differ, for
which instructions, and the bounds on a new `pc` and on a store. -/
inductive ExecEnds (i : Instr) (s : State) : State → Prop
  | raised (w : Option Word) (c : FatalCause) : ExecEnds i s (s.raise w c)
  | halted : ExecEnds i s s.advance.halt
  | jumped (target : Word) (hpc : target.toNat ≤ max 4350 (s.pc.toNat + 4)) : ExecEnds i s (s.jumpTo target)
  | called (nnn : Addr12) (hi : i.mnemonic = .CALL) (hsp : s.sp.val < 16) :
      ExecEnds i s
        { s with
          stack := s.stack.set s.sp.val (s.pc + 2#16) hsp
          sp := ⟨s.sp.val + 1, Nat.succ_lt_succ hsp⟩
          pc := zext16 nnn }
  | returned (hi : i.mnemonic = .RET) (hsp : s.sp.val ≠ 0) :
      ExecEnds i s { s with sp := ⟨s.sp.val - 1, by omega⟩, pc := s.slot ⟨s.sp.val - 1, by omega⟩ }
  | wroteRegs (regs : Vector Byte 16) (random : RandomPort) :
      ExecEnds i s { s.advance with regs := regs, random := random }
  | wroteI (v : Word) (hi : i.mnemonic = .SETI ∨ i.mnemonic = .ADDA) : ExecEnds i s { s.advance with I := v }
  | stored (bytes : List Byte) (hi : i.mnemonic = .DUMP ∨ i.mnemonic = .BCD)
      (hin : s.I.toNat + bytes.length ≤ Config.memSize) :
      ExecEnds i s { s.advance with mem := s.mem.store s.I.toNat bytes }
  | drew (regs : Vector Byte 16) (disp : Display) (hi : i.mnemonic = .DRAW) :
      ExecEnds i s { s.advance with regs := regs, disp := disp }

theorem zext16_toNat (nnn : Addr12) : (zext16 nnn).toNat = nnn.toNat :=
  BitVec.toNat_setWidth_of_le (by decide)

theorem jumpv0Target_toNat_le (v : Byte) (nnn : Addr12) : (jumpv0Target v nnn).toNat ≤ 4350 := by
  rw [jumpv0Target, BitVec.toNat_ofNat]; omega

theorem ExecEnds.skip (c : Bool) : ExecEnds i s (s.skipIf c) := by
  rw [State.skipIf_eq]
  refine .jumped _ ?_
  cases c <;> simp <;> omega

/-- Every instruction has a next state, in one of the forms of `ExecEnds`; the last case is the ALU family. -/
theorem exec_ends (i : Instr) (s : State) : ∃ t, exec i s = .next t ∧ ExecEnds i s t := by
  cases i with
  | halt => exact ⟨_, rfl, .halted⟩
  | jump nnn => exact ⟨_, rfl, .jumped _ (by rw [zext16_toNat]; omega)⟩
  | jumpv0 nnn => exact ⟨_, rfl, .jumped _ (le_max_of_le_left (jumpv0Target_toNat_le _ nnn))⟩
  | skeqi x nn => exact ⟨_, rfl, .skip _⟩
  | sknei x nn => exact ⟨_, rfl, .skip _⟩
  | skeq x y => exact ⟨_, rfl, .skip _⟩
  | skne x y => exact ⟨_, rfl, .skip _⟩
  | call nnn =>
    rcases execCall_cases nnn s with ⟨_, e⟩ | ⟨hsp, e⟩
    · exact ⟨_, e, .raised _ _⟩
    · exact ⟨_, e, .called nnn rfl hsp⟩
  | ret =>
    rcases execRet_cases s with ⟨_, e⟩ | ⟨hsp, e⟩
    · exact ⟨_, e, .raised _ _⟩
    · exact ⟨_, e, .returned rfl hsp⟩
  | seti nnn => exact ⟨_, rfl, .wroteI _ (.inl rfl)⟩
  | adda x => exact ⟨_, rfl, .wroteI _ (.inr rfl)⟩
  | dump x =>
    rcases execDump_cases x s with ⟨_, e⟩ | ⟨hin, e⟩
    · exact ⟨_, e, .raised _ _⟩
    · exact ⟨_, e, .stored _ (.inl rfl) (by simp only [State.firstRegs_length, Config.memSize]; omega)⟩
  | bcd x =>
    rcases execBcd_cases x s with ⟨_, e⟩ | ⟨hin, e⟩
    · exact ⟨_, e, .raised _ _⟩
    · have hlength : (bcdDigits (s.reg x)).length = 3 := rfl
      exact ⟨_, e, .stored _ (.inr rfl) (by simp only [hlength, Config.memSize]; omega)⟩
  | load x =>
    rcases execLoad_cases x s with ⟨_, e⟩ | ⟨_, e⟩
    · exact ⟨_, e, .raised _ _⟩
    · exact ⟨_, e, .wroteRegs _ s.random⟩
  | draw x y d =>
    rcases execDraw_cases x y d s with ⟨_, e⟩ | ⟨_, e⟩ | ⟨_, e⟩
    · exact ⟨_, e, .raised _ _⟩
    · exact ⟨_, e, .raised _ _⟩
    · exact ⟨_, e, .drew _ _ rfl⟩
  | _ => exact ⟨_, rfl, .wroteRegs _ _⟩

theorem ExecEnds.of_next (h : exec i s = .next t) : ExecEnds i s t := by
  obtain ⟨u, e, hu⟩ := exec_ends i s
  exact next_unique e h ▸ hu

/-! ### Who writes what -/

/-- A running core is halted by `HALT` alone (R71). -/
theorem exec_halted (h : exec i s = .next t) (hs : s.status = .running) (ht : t.status = .halted) : i = .halt := by
  rcases exec_cases i s with ⟨c, e⟩ | ⟨u, e, hstatus, _⟩ | ⟨hi, _⟩
  · obtain rfl := next_unique e h
    cases ht
  · obtain rfl := next_unique e h
    rw [hstatus, hs] at ht
    cases ht
  · exact hi

/-- Each form leaves the fields that its instructions do not name. -/
theorem ExecEnds.writers (h : ExecEnds i s t) :
    (t.I ≠ s.I → i.mnemonic ∈ [.SETI, .ADDA]) ∧ (t.stack ≠ s.stack → i.mnemonic = .CALL) ∧
    (t.sp ≠ s.sp → i.mnemonic ∈ [.CALL, .RET]) ∧ (t.mem ≠ s.mem → i.mnemonic ∈ [.DUMP, .BCD]) ∧
    (t.disp ≠ s.disp → i.mnemonic = .DRAW) := by
  cases h with
  | raised w c => simp
  | halted => simp
  | jumped target _ => simp
  | called nnn hi _ => simp [hi]
  | returned hi _ => simp [hi]
  | wroteRegs regs random => simp
  | wroteI v hi => simp [hi]
  | stored bytes hi _ => simp [hi]
  | drew regs disp hi => simp [hi]

/-- Settles O22: the fields by the form of the next state, the latch by `exec_halted`. -/
theorem onlyTheNamedInstructionsWrite : Obligations.OnlyTheNamedInstructionsWrite := by
  intro i s t h
  obtain ⟨hI, hstack, hsp, hmem, hdisp⟩ := (ExecEnds.of_next h).writers
  exact ⟨hI, hstack, hsp, hmem, hdisp, exec_halted h⟩

/-! ### The invariant along a step (R25) -/

/-- From a fetchable `pc` the fetch's advance does not wrap. -/
theorem State.advance_pc_toNat (h : s.pc.toNat ≤ 4094) : (s.pc + 2#16).toNat = s.pc.toNat + 2 := by
  rw [BitVec.toNat_add, BitVec.toNat_ofNat]; omega

/-- A completed `CALL` keeps the invariant: the slot it fills holds the address after a fetched word (R73). -/
theorem State.Inv.call (hs : s.Inv) (hfetched : s.pc.toNat ≤ 4094) (nnn : Addr12) (hsp : s.sp.val < 16) :
    State.Inv
      { s with
        stack := s.stack.set s.sp.val (s.pc + 2#16) hsp
        sp := ⟨s.sp.val + 1, Nat.succ_lt_succ hsp⟩
        pc := zext16 nnn } := by
  obtain ⟨hmem, -, hslots⟩ := hs
  refine ⟨hmem, by simp only [zext16_toNat]; omega, fun k hk => ?_⟩
  simp only [State.slot, slot_set s.stack ⟨s.sp.val, hsp⟩ k]
  by_cases hnew : k = ⟨s.sp.val, hsp⟩
  · rw [if_pos hnew, State.advance_pc_toNat hfetched]; omega
  · have hne : k.val ≠ s.sp.val := Fin.val_ne_iff.mpr hnew
    rw [if_neg hnew]
    exact hslots k (lt_of_le_of_ne (Nat.le_of_lt_succ hk) hne)

/-- A completed `RET` keeps the invariant: `pc` is a saved address, and fewer slots are in use (R74). -/
theorem State.Inv.ret (hs : s.Inv) (hsp : s.sp.val ≠ 0) :
    State.Inv { s with sp := ⟨s.sp.val - 1, by omega⟩, pc := s.slot ⟨s.sp.val - 1, by omega⟩ } := by
  obtain ⟨hmem, -, hslots⟩ := hs
  obtain ⟨-, htarget⟩ := hslots ⟨s.sp.val - 1, by omega⟩ (by simp only; omega)
  exact ⟨hmem, by simp only; omega, fun k hk => hslots k (by simp only at hk; omega)⟩

/-- An instruction that was fetched keeps the invariant. -/
theorem ExecEnds.inv (h : ExecEnds i s t) (hs : s.Inv) (hfetched : s.pc.toNat ≤ 4094) : t.Inv := by
  have hadvance : (s.pc + 2#16).toNat ≤ 4350 := by rw [State.advance_pc_toNat hfetched]; omega
  have ⟨hmem, hpc, _⟩ := hs
  cases h with
  | raised w c => exact hs.of_sameStack hmem hpc (.of_fields rfl rfl)
  | halted => exact hs.of_sameStack hmem hadvance (.of_fields rfl rfl)
  | jumped target htarget =>
    exact hs.of_sameStack hmem (by rw [State.jumpTo_pc]; omega) (.of_fields rfl rfl)
  | called nnn _ hsp => exact hs.call hfetched nnn hsp
  | returned _ hsp => exact hs.ret hsp
  | wroteRegs regs random => exact hs.of_sameStack hmem hadvance (.of_fields rfl rfl)
  | wroteI v _ => exact hs.of_sameStack hmem hadvance (.of_fields rfl rfl)
  | stored bytes _ hin =>
    exact hs.of_sameStack (Memory.wf_store bytes s.mem s.I.toNat hin hmem) hadvance (.of_fields rfl rfl)
  | drew regs disp _ => exact hs.of_sameStack hmem hadvance (.of_fields rfl rfl)

/-- Only a running core has a next state (R133). -/
theorem running_of_step (h : step s = .next t) : s.status = .running := by
  cases hs : s.status with
  | running => rfl
  | halted => simp [step, hs] at h
  | faulted f => simp [step, hs] at h

/-- A next state is the fault of a failed fetch or decode, or comes of an instruction fetched inside memory (R54). -/
theorem step_next_cases (h : step s = .next t) :
    (∃ w c, t = s.raise w c) ∨ ∃ i, s.pc.toNat ≤ 4094 ∧ exec i s = .next t := by
  rcases step_cases s (running_of_step h) with ⟨_, _, e⟩ | ⟨w, _, _, _, _, e⟩ | ⟨_, i, hpc, _, _, e⟩
  · exact .inl ⟨_, _, next_unique e h⟩
  · exact .inl ⟨_, _, next_unique e h⟩
  · exact .inr ⟨i, hpc, e.symm.trans h⟩

/-- Settles O20: a fault leaves what the invariant speaks of, and an instruction keeps it by `ExecEnds.inv`. -/
theorem stepKeepsTheInvariant : Obligations.StepKeepsTheInvariant := by
  intro s t hs h
  rcases step_next_cases h with ⟨w, c, rfl⟩ | ⟨i, hpc, e⟩
  · exact hs
  · exact (ExecEnds.of_next e).inv hs hpc

end Sys2Proof.Machine
end

section
/-!
SUPPORT. Memory as the fetch sees it (spec/20_memory.md): the order of its two bytes, its bounds, and a store by `DUMP`
into the word that is fetched next.
-/

namespace Sys2Proof.Machine

/-! ### The fetch -/

/-- Settles O6: the bytes of `fetch_of_le`, joined as `wordOfBytes_toNat` says. -/
theorem fetchIsBigEndian : Obligations.FetchIsBigEndian := fun s h =>
  ⟨_, fetch_of_le s h, wordOfBytes_toNat _ _⟩

/-- A fetch outside memory ends the step (R33, R144). -/
theorem step_of_fetch_outside {s : State} (hr : s.status = .running) (h : 4095 ≤ s.pc.toNat) :
    step s = .next (s.raise none (.memoryBounds (max s.pc.toNat 4096))) := by
  rcases step_cases s hr with ⟨_, _, e⟩ | ⟨_, _, hpc, _⟩ | ⟨_, _, hpc, _⟩
  · exact e
  · omega
  · omega

/-- Settles O9: `raise` records the fault and changes nothing else. -/
theorem fetchOutsideMemoryIsFatal : Obligations.FetchOutsideMemoryIsFatal := fun _ hr h =>
  ⟨_, step_of_fetch_outside hr h, rfl⟩

/-! ### A store into code -/

/-- `DUMP` with all its bytes inside memory stores (R113). -/
theorem exec_dump_of_le {x : Reg} {s : State} (h : s.I.toNat + x.val ≤ 4095) :
    exec (.dump x) s = .next { s.advance with mem := s.mem.store s.I.toNat (s.firstRegs (x.val + 1)) } := by
  rcases execDump_cases x s with ⟨hout, _⟩ | ⟨_, e⟩
  · omega
  · exact e

/-- What `DUMP` stored at `I + k` is `x[k]` (R113). -/
theorem State.read_store_firstRegs {x : Reg} {s : State} (hwf : s.mem.wf = true) (h : s.I.toNat + x.val ≤ 4095)
    (k : Reg) (hk : k.val ≤ x.val) :
    (s.mem.store s.I.toNat (s.firstRegs (x.val + 1))).read (s.I.toNat + k.val) = s.reg k := by
  have hin : s.I.toNat + (s.firstRegs (x.val + 1)).length ≤ Config.memSize := by
    simp only [State.firstRegs_length, Config.memSize]; omega
  rw [Memory.read_store _ _ _ _ hin hwf, if_pos (by rw [State.firstRegs_length]; omega), Nat.add_sub_cancel_left,
    s.firstRegs_getD x k.val hk]

/-- Settles O48: after the `DUMP` `pc` is `I`, so the fetch reads the first two bytes stored. -/
theorem storedBytesAreFetchedNext : Obligations.StoredBytesAreFetchedNext := by
  rintro x s ⟨hwf, -, -⟩ hx hI hin -
  refine ⟨_, exec_dump_of_le hin, ?_⟩
  have hfirst := State.read_store_firstRegs hwf hin 0 (Nat.zero_le _)
  have hsecond := State.read_store_firstRegs hwf hin 1 hx
  rw [fetch_of_le]
  · simp only [State.advance_pc, ← hI]
    rw [← hfirst, ← hsecond]; rfl
  · simp only [State.advance_pc, ← hI]; omega

end Sys2Proof.Machine
end

section
/-!
SUPPORT. The encoding (spec/30_encoding.md): the fields of a word, the decoder and the encoder each undoing the other,
the opcode map read both ways, and the words of R58.
-/

namespace Sys2Proof

/-! ### The fields of a word (R51) -/

/-- Settles O58: a field is an `extractLsb'`, whose bits are bits of the word; the fields side by side are equal as
numbers. -/
theorem fieldsOfTheWord : Obligations.FieldsOfTheWord := by
  intro w
  refine ⟨fun k hk => ?_, fun k hk => ?_, fun k hk => ?_, (wordOf_fields w).symm, ?_, ?_, ?_, rfl⟩
  · simp [fieldC, fieldX, fieldY, fieldD, hk, Nat.add_comm]
  · simp [fieldNNN, hk]
  · simp [fieldNN, hk]
  · apply BitVec.eq_of_toNat_eq
    rw [append_toNat, append_toNat, fieldNNN_toNat, fieldX_toNat, fieldY_toNat, fieldD_toNat]; omega
  · apply BitVec.eq_of_toNat_eq
    rw [append_toNat, fieldNN_toNat, fieldY_toNat, fieldD_toNat]; omega
  · apply BitVec.eq_of_toNat_eq
    have hhigh : (highByte w).toNat = w.toNat / 256 % 256 := by simp [highByte, Nat.shiftRight_eq_div_pow]
    rw [append_toNat, hhigh, fieldC_toNat, fieldX_toNat]; omega

/-! ### The decoder undoes the encoder -/

/-- The decoder reads an instruction back from its word: the leading nibble, with the fixed low nibbles of the format,
chooses the arm, and each operand is the field it was put into (R53, R56). -/
theorem decodeWord_encode (i : Instr) : decodeWord (encode i) = .ok i := by
  cases i with
  | halt | ret => rfl
  | jump nnn | call nnn | seti nnn | jumpv0 nnn => simp [encode, decodeWord]
  | skeqi x nn | sknei x nn | ldi x nn | addi x nn | rand x nn => simp [encode, decodeWord]
  | skeq x y | skne x y | draw x y d => simp [encode, decodeWord]
  | mov x y | or x y | and x y | xor x y | add x y | sub x y | subr x y | shr x | shl x =>
    simp [encode, decodeWord, decode8]
  | adda x | bcd x | dump x | load x => simp [encode, decodeWord, decodeF, fieldNN_wordOf_eq]

/-- The decoder on the bytes of a word reads the word and leaves the bytes after it (R50). -/
theorem decode_bytes (w : Word) (rest : List Byte) :
    decode (highByte w :: lowByte w :: rest) = (decodeWord w).map fun i => (i, rest) := by
  rw [decode, wordOfBytes_bytes]
  cases decodeWord w <;> rfl

/-- Settles O1: `decodeWord_encode`, on the word and on its two bytes. -/
theorem decodeOfEncodeIsIdentity : Obligations.DecodeOfEncodeIsIdentity := fun i _ =>
  ⟨decodeWord_encode i, fun rest => by
    show decode (highByte (encode i) :: lowByte (encode i) :: rest) = _
    rw [decode_bytes, decodeWord_encode]; rfl⟩

/-- Settles O4: nine words, each evaluated by the decoder. -/
theorem sampleWordsDecode : Obligations.SampleWordsDecode := by
  unfold Obligations.SampleWordsDecode
  decide

/-! ### The encoder undoes the decoder -/

theorem wordOfN_of_fieldC {w : Word} {c : Nibble} (hc : fieldC w = c) : wordOfN c (fieldNNN w) = w := by
  rw [← hc, wordOfN_fields]

theorem wordOfXN_of_fieldC {w : Word} {c : Nibble} (hc : fieldC w = c) : wordOfXN c (fieldX w) (fieldNN w) = w := by
  rw [← hc, wordOfXN_fields]

/-- Formats XY and XYD: `d` is fixed, or the operand. -/
theorem wordOf_of_fieldD {w : Word} {c d : Nibble} (hc : fieldC w = c) (hd : fieldD w = d) :
    wordOf c (fieldX w) (fieldY w) d = w := by
  rw [← hc, ← hd, wordOf_fields]

/-- Format X of the `8` group: `y` and `d` are fixed. -/
theorem wordOf_of_fieldY {w : Word} {c y d : Nibble} (hc : fieldC w = c) (hy : fieldY w = y) (hd : fieldD w = d) :
    wordOf c (fieldX w) y d = w := by
  rw [← hy, wordOf_of_fieldD hc hd]

/-- Format X of the `F` group: the low byte is fixed, which `encode` spells in nibbles and the decoder as one. -/
theorem wordOf_of_fieldNN {w : Word} {c y d : Nibble} (nn : Byte) (hc : fieldC w = c) (hn : fieldNN w = nn)
    (hy : nn.extractLsb' 4 4 = y) (hd : nn.extractLsb' 0 4 = d) : wordOf c (fieldX w) y d = w := by
  rw [← hy, ← hd, ← wordOfXN_eq, ← hn, wordOfXN_of_fieldC hc]

/-- An answer of the decoder that fits the word it was given: an instruction encoded by that word, or the rejection of
that word (R54, R58). -/
def FitsWord (w : Word) : Except Reject Instr → Prop
  | .ok i => encode i = w
  | .error e => e = .invalidOpcode w

theorem decode8_fits {w : Word} (hc : fieldC w = 0x8#4) : FitsWord w (decode8 w) := by
  have hxy : ∀ {d : Nibble}, fieldD w = d → wordOf 0x8#4 (fieldX w) (fieldY w) d = w := wordOf_of_fieldD hc
  have hshift : ∀ {d : Nibble} {i : Instr}, fieldD w = d → encode i = wordOf 0x8#4 (fieldX w) 0x0#4 d →
      FitsWord w (if fieldY w == 0x0#4 || Config.shiftYAny then .ok i else .error (.invalidOpcode w)) := by
    intro d i hd hi
    split
    next hy =>
      have hy : fieldY w = 0x0#4 := by simpa [Config.shiftYAny] using hy
      exact hi.trans (wordOf_of_fieldY hc hy hd)
    next => rfl
  unfold decode8
  split
  next hd => exact hxy hd
  next hd => exact hxy hd
  next hd => exact hxy hd
  next hd => exact hxy hd
  next hd => exact hxy hd
  next hd => exact hxy hd
  next hd => exact hshift hd rfl
  next hd => exact hxy hd
  next hd => exact hshift hd rfl
  next => rfl

theorem decodeF_fits {w : Word} (hc : fieldC w = 0xF#4) : FitsWord w (decodeF w) := by
  unfold decodeF
  split
  next hn => exact wordOf_of_fieldNN _ hc hn rfl rfl
  next hn => exact wordOf_of_fieldNN _ hc hn rfl rfl
  next hn => exact wordOf_of_fieldNN _ hc hn rfl rfl
  next hn => exact wordOf_of_fieldNN _ hc hn rfl rfl
  next => rfl

/-- The decoder answers a word with an instruction encoded by it, or with its rejection. -/
theorem decodeWord_fits (w : Word) : FitsWord w (decodeWord w) := by
  unfold decodeWord
  split
  next =>
    split
    next h => exact h.symm
    next =>
      split
      next h => exact h.symm
      next => rfl
  next hc => exact wordOfN_of_fieldC hc
  next hc => exact wordOfN_of_fieldC hc
  next hc => exact wordOfXN_of_fieldC hc
  next hc => exact wordOfXN_of_fieldC hc
  next hc =>
    split
    next hd => exact wordOf_of_fieldD hc hd
    next => rfl
  next hc => exact wordOfXN_of_fieldC hc
  next hc => exact wordOfXN_of_fieldC hc
  next hc => exact decode8_fits hc
  next hc =>
    split
    next hd => exact wordOf_of_fieldD hc hd
    next => rfl
  next hc => exact wordOfN_of_fieldC hc
  next hc => exact wordOfN_of_fieldC hc
  next hc => exact wordOfXN_of_fieldC hc
  next hc => exact wordOf_of_fieldD hc rfl
  next hc => exact decodeF_fits hc
  next => rfl

/-- A word is read as an instruction that it encodes, or it is rejected as itself. -/
theorem decodeWord_cases (w : Word) :
    (∃ i, decodeWord w = .ok i ∧ encode i = w) ∨ decodeWord w = .error (.invalidOpcode w) := by
  have hfits := decodeWord_fits w
  cases hd : decodeWord w with
  | ok i => rw [hd] at hfits; exact .inl ⟨i, rfl, hfits⟩
  | error e => rw [hd] at hfits; exact .inr (congrArg _ hfits)

/-- Settles O2: what `decodeWord_fits` says of an instruction. -/
theorem encodeOfDecodeIsIdentity : Obligations.EncodeOfDecodeIsIdentity := fun w i h => by
  have hfits := decodeWord_fits w
  rwa [h] at hfits

/-! ### The opcode map -/

/-- The encoding of every instruction selects the row it stands for. -/
theorem encode_selects_row (i : Instr) : Laws.EncodingSelectsItsRow.Statement i := by
  open Laws.EncodingSelectsItsRow in
  cases i with
  | halt => exact halt
  | ret => exact ret
  | jump nnn => exact jump nnn
  | call nnn => exact call nnn
  | skeqi x nn => exact skeqi x nn
  | sknei x nn => exact sknei x nn
  | skeq x y => exact skeq x y
  | ldi x nn => exact ldi x nn
  | addi x nn => exact addi x nn
  | mov x y => exact mov x y
  | or x y => exact or x y
  | and x y => exact and x y
  | xor x y => exact xor x y
  | add x y => exact add x y
  | sub x y => exact sub x y
  | shr x => exact shr x
  | subr x y => exact subr x y
  | shl x => exact shl x
  | skne x y => exact skne x y
  | seti nnn => exact seti nnn
  | jumpv0 nnn => exact jumpv0 nnn
  | rand x nn => exact rand x nn
  | draw x y d => exact draw x y d
  | adda x => exact adda x
  | bcd x => exact bcd x
  | dump x => exact dump x
  | load x => exact load x

section
variable {r : OpcodeRow} {w : Word}

theorem and_mask_of_selects (h : r.selects w = true) : w &&& r.mask = r.word := by
  simpa [OpcodeRow.selects] using h

/-- A row whose mask is all ones selects its own word alone. -/
theorem eq_word_of_selects (h : r.selects w = true) (hm : r.mask = 0xFFFF#16) : w = r.word := by
  rw [← and_mask_of_selects h, hm]
  exact BitVec.and_allOnes.symm

/-- A field that lies whole under the mask has the row's value. -/
theorem field_of_selects {n : Nat} (start : Nat) {v : BitVec n} (h : r.selects w = true)
    (hm : r.mask.extractLsb' start n = BitVec.allOnes n) (hv : r.word.extractLsb' start n = v) :
    w.extractLsb' start n = v := by
  rw [← hv, ← and_mask_of_selects h, BitVec.extractLsb'_and, hm, BitVec.and_allOnes]

theorem fieldC_of_selects {c : Nibble} (h : r.selects w = true) (hm : fieldC r.mask = 0xF#4)
    (hc : fieldC r.word = c) : fieldC w = c := field_of_selects 12 h hm hc

theorem fieldD_of_selects {d : Nibble} (h : r.selects w = true) (hm : fieldD r.mask = 0xF#4)
    (hd : fieldD r.word = d) : fieldD w = d := field_of_selects 0 h hm hd

theorem fieldNN_of_selects {nn : Byte} (h : r.selects w = true) (hm : fieldNN r.mask = 0xFF#8)
    (hn : fieldNN r.word = nn) : fieldNN w = nn := field_of_selects 0 h hm hn

/-- Format N under the mask 0xF000. -/
theorem wordOfN_of_selects {c : Nibble} (h : r.selects w = true) (hm : fieldC r.mask = 0xF#4)
    (hc : fieldC r.word = c) : wordOfN c (fieldNNN w) = w := wordOfN_of_fieldC (fieldC_of_selects h hm hc)

/-- Format XN under the mask 0xF000. -/
theorem wordOfXN_of_selects {c : Nibble} (h : r.selects w = true) (hm : fieldC r.mask = 0xF#4)
    (hc : fieldC r.word = c) : wordOfXN c (fieldX w) (fieldNN w) = w :=
  wordOfXN_of_fieldC (fieldC_of_selects h hm hc)

/-- Format XY under the mask 0xF00F. -/
theorem wordOf_of_selects {c d : Nibble} (h : r.selects w = true) (hmc : fieldC r.mask = 0xF#4)
    (hmd : fieldD r.mask = 0xF#4) (hc : fieldC r.word = c) (hd : fieldD r.word = d) :
    wordOf c (fieldX w) (fieldY w) d = w :=
  wordOf_of_fieldD (fieldC_of_selects h hmc hc) (fieldD_of_selects h hmd hd)

/-- Format X under the mask 0xF0FF. -/
theorem wordOfX_of_selects {c y d : Nibble} (h : r.selects w = true) (hmc : fieldC r.mask = 0xF#4)
    (hmn : fieldNN r.mask = 0xFF#8) (hc : fieldC r.word = c) (hy : (fieldNN r.word).extractLsb' 4 4 = y)
    (hd : (fieldNN r.word).extractLsb' 0 4 = d) : wordOf c (fieldX w) y d = w :=
  wordOf_of_fieldNN _ (fieldC_of_selects h hmc hc) (fieldNN_of_selects h hmn rfl) hy hd

end

/-- A word that selects a row of the opcode map is the encoding of an instruction of that row (R54, R56): the converse
of `encode_selects_row`. The mask fixes the nibbles that are no operand, and the operands are the other fields. -/
theorem exists_encode_of_selects (w : Word) :
    ∀ r ∈ opcodeTable, r.selects w = true → ∃ i, encode i = w ∧ i.mnemonic = r.mnemonic := by
  let x := nibbleIndex (fieldX w)
  let y := nibbleIndex (fieldY w)
  simp only [opcodeTable, opcodeTableLow, opcodeTableHigh, List.cons_append, List.nil_append, List.forall_mem_cons]
  exact ⟨fun h => ⟨.halt, (eq_word_of_selects h rfl).symm, rfl⟩,
    fun h => ⟨.ret, (eq_word_of_selects h rfl).symm, rfl⟩,
    fun h => ⟨.jump (fieldNNN w), wordOfN_of_selects h rfl rfl, rfl⟩,
    fun h => ⟨.call (fieldNNN w), wordOfN_of_selects h rfl rfl, rfl⟩,
    fun h => ⟨.skeqi x (fieldNN w), wordOfXN_of_selects h rfl rfl, rfl⟩,
    fun h => ⟨.sknei x (fieldNN w), wordOfXN_of_selects h rfl rfl, rfl⟩,
    fun h => ⟨.skeq x y, wordOf_of_selects h rfl rfl rfl rfl, rfl⟩,
    fun h => ⟨.ldi x (fieldNN w), wordOfXN_of_selects h rfl rfl, rfl⟩,
    fun h => ⟨.addi x (fieldNN w), wordOfXN_of_selects h rfl rfl, rfl⟩,
    fun h => ⟨.mov x y, wordOf_of_selects h rfl rfl rfl rfl, rfl⟩,
    fun h => ⟨.or x y, wordOf_of_selects h rfl rfl rfl rfl, rfl⟩,
    fun h => ⟨.and x y, wordOf_of_selects h rfl rfl rfl rfl, rfl⟩,
    fun h => ⟨.xor x y, wordOf_of_selects h rfl rfl rfl rfl, rfl⟩,
    fun h => ⟨.add x y, wordOf_of_selects h rfl rfl rfl rfl, rfl⟩,
    fun h => ⟨.sub x y, wordOf_of_selects h rfl rfl rfl rfl, rfl⟩,
    fun h => ⟨.shr x, wordOfX_of_selects h rfl rfl rfl rfl rfl, rfl⟩,
    fun h => ⟨.subr x y, wordOf_of_selects h rfl rfl rfl rfl, rfl⟩,
    fun h => ⟨.shl x, wordOfX_of_selects h rfl rfl rfl rfl rfl, rfl⟩,
    fun h => ⟨.skne x y, wordOf_of_selects h rfl rfl rfl rfl, rfl⟩,
    fun h => ⟨.seti (fieldNNN w), wordOfN_of_selects h rfl rfl, rfl⟩,
    fun h => ⟨.jumpv0 (fieldNNN w), wordOfN_of_selects h rfl rfl, rfl⟩,
    fun h => ⟨.rand x (fieldNN w), wordOfXN_of_selects h rfl rfl, rfl⟩,
    fun h => ⟨.draw x y (nibbleIndex (fieldD w)), wordOf_of_fieldD (fieldC_of_selects h rfl rfl) rfl, rfl⟩,
    fun h => ⟨.adda x, wordOfX_of_selects h rfl rfl rfl rfl rfl, rfl⟩,
    fun h => ⟨.bcd x, wordOfX_of_selects h rfl rfl rfl rfl rfl, rfl⟩,
    fun h => ⟨.dump x, wordOfX_of_selects h rfl rfl rfl rfl rfl, rfl⟩,
    fun h => ⟨.load x, wordOfX_of_selects h rfl rfl rfl rfl rfl, rfl⟩,
    List.forall_mem_nil _⟩

/-- No two rows of the opcode map bear one name. -/
theorem row_eq_of_mnemonic_eq :
    ∀ r₁ ∈ opcodeTable, ∀ r₂ ∈ opcodeTable, r₁.mnemonic = r₂.mnemonic → r₁ = r₂ := by decide

/-- A word that selects a row decodes to an instruction of that row. -/
theorem decodeWord_of_selects {w : Word} {r : OpcodeRow} (hr : r ∈ opcodeTable) (h : r.selects w = true) :
    ∃ i, decodeWord w = .ok i ∧ i.mnemonic = r.mnemonic := by
  obtain ⟨i, rfl, hm⟩ := exists_encode_of_selects w r hr h
  exact ⟨i, decodeWord_encode i, hm⟩

/-- Settles O3: a word that selects a row decodes to an instruction of its name, and no two rows share a name; a word
that decodes is an encoding, which selects a row. -/
theorem decoderFollowsOpcodeMap : Obligations.DecoderFollowsOpcodeMap := by
  intro w
  refine ⟨fun r₁ h₁ r₂ h₂ hs₁ hs₂ => ?_, fun r hr hs => decodeWord_of_selects hr hs, fun hnone => ?_⟩
  · obtain ⟨i₁, hd₁, hm₁⟩ := decodeWord_of_selects h₁ hs₁
    obtain ⟨i₂, hd₂, hm₂⟩ := decodeWord_of_selects h₂ hs₂
    obtain rfl : i₁ = i₂ := Except.ok.inj (hd₁.symm.trans hd₂)
    exact row_eq_of_mnemonic_eq r₁ h₁ r₂ h₂ (hm₁.symm.trans hm₂)
  · rcases decodeWord_cases w with ⟨i, -, rfl⟩ | hd
    · obtain ⟨r, hr, -, hs⟩ := encode_selects_row i
      exact absurd hs (by simp [hnone r hr])
    · exact hd

/-! ### The words of R58 -/

/-- The words that R58 lists as no instruction, as `Obligations.InvalidWordsAreFatal` spells them. -/
def Unassigned (w : Word) : Prop :=
  (fieldC w = 0x0#4 ∧ w ≠ 0x0000#16 ∧ w ≠ 0x00EE#16) ∨
  (fieldC w = 0x5#4 ∧ fieldD w ≠ 0x0#4) ∨
  (fieldC w = 0x8#4 ∧ (fieldD w).toNat ∈ [0x8, 0x9, 0xA, 0xB, 0xC, 0xD, 0xF]) ∨
  (fieldC w = 0x8#4 ∧ (fieldD w).toNat ∈ [0x6, 0xE] ∧ fieldY w ≠ 0x0#4) ∨
  (fieldC w = 0x9#4 ∧ fieldD w ≠ 0x0#4) ∨
  fieldC w = 0xE#4 ∨
  (fieldC w = 0xF#4 ∧ (fieldNN w).toNat ∉ [0x1E, 0x33, 0x55, 0x65])

/-- No instruction's word is among them: its leading nibble leaves at most two of the seven sets, and the fixed nibbles
of its format keep it out of those. -/
theorem not_unassigned_encode (i : Instr) : ¬ Unassigned (encode i) := by
  cases i with
  | halt | ret => unfold Unassigned; decide
  | adda x | bcd x | dump x | load x => simp [Unassigned, encode, fieldNN_wordOf]
  | _ => simp [Unassigned, encode]

theorem decodeWord_of_unassigned {w : Word} (h : Unassigned w) : decodeWord w = .error (.invalidOpcode w) := by
  rcases decodeWord_cases w with ⟨i, -, rfl⟩ | hd
  · exact absurd h (not_unassigned_encode i)
  · exact hd

end Sys2Proof
end

section
/-!
SUPPORT. Lines of assembly (spec/30_encoding.md section 4, R61): a well-formed line and an instruction stand for each
other.
-/

namespace Sys2Proof

/-- Operands in bounds are as many as the bounds, each below its own. -/
theorem inBounds_iff (vs bs : List Nat) : inBounds vs bs = true ↔ List.Forall₂ (· < ·) vs bs := by
  induction vs generalizing bs with
  | nil => cases bs <;> simp [inBounds]
  | cons v vs ih => cases bs <;> simp [inBounds, ih]

/-- Every operand is in range by its type (R52). -/
theorem Instr.toLine_wellFormed (i : Instr) : i.toLine.wellFormed = true := by
  rw [AsmLine.wellFormed, inBounds_iff]
  cases i with
  | halt | ret => exact .nil
  | jump nnn | call nnn | seti nnn | jumpv0 nnn => exact .cons nnn.isLt .nil
  | skeqi x nn | sknei x nn | ldi x nn | addi x nn | rand x nn => exact .cons x.isLt (.cons nn.isLt .nil)
  | skeq x y | skne x y | mov x y | or x y | and x y | xor x y | add x y | sub x y | subr x y =>
    exact .cons x.isLt (.cons y.isLt .nil)
  | shr x | shl x | adda x | bcd x | dump x | load x => exact .cons x.isLt .nil
  | draw x y d => exact .cons x.isLt (.cons y.isLt (.cons d.isLt .nil))

/-- The line of an instruction assembles to it: an operand written as a number is read back, since it is in range. -/
theorem Instr.toInstr_toLine (i : Instr) : i.toLine.toInstr = some i := by
  have hwf := i.toLine_wellFormed
  cases i with
  | halt | ret => rfl
  | _ => exact (if_pos hwf).trans (by simp [Instr.toLine, Instr.mnemonic])

/-- A well-formed line assembles to an instruction whose line it is: an operand below its bound is not truncated. -/
theorem AsmLine.exists_toInstr (l : AsmLine) (hl : l.wellFormed = true) :
    ∃ i, l.toInstr = some i ∧ i.toLine = l := by
  obtain ⟨m, ops⟩ := l
  have hb := (inBounds_iff _ _).mp hl
  cases m with
  | HALT | RET => cases hb; exact ⟨_, rfl, rfl⟩
  | JUMP | CALL | SETI | JUMPV0 =>
    obtain _ | ⟨hn, _ | _⟩ := hb
    exact ⟨_, if_pos hl, by simp [Instr.toLine, Instr.mnemonic, Nat.mod_eq_of_lt hn]⟩
  | SKEQI | SKNEI | LDI | ADDI | RAND =>
    obtain _ | ⟨hx, _ | ⟨hn, _ | _⟩⟩ := hb
    exact ⟨_, if_pos hl, by simp [Instr.toLine, Instr.mnemonic, Nat.mod_eq_of_lt hx, Nat.mod_eq_of_lt hn]⟩
  | SKEQ | SKNE | MOV | OR | AND | XOR | ADD | SUB | SUBR =>
    obtain _ | ⟨hx, _ | ⟨hy, _ | _⟩⟩ := hb
    exact ⟨_, if_pos hl, by simp [Instr.toLine, Instr.mnemonic, Nat.mod_eq_of_lt hx, Nat.mod_eq_of_lt hy]⟩
  | SHR | SHL | ADDA | BCD | DUMP | LOAD =>
    obtain _ | ⟨hx, _ | _⟩ := hb
    exact ⟨_, if_pos hl, by simp [Instr.toLine, Instr.mnemonic, Nat.mod_eq_of_lt hx]⟩
  | DRAW =>
    obtain _ | ⟨hx, _ | ⟨hy, _ | ⟨hd, _ | _⟩⟩⟩ := hb
    exact ⟨_, if_pos hl,
      by simp [Instr.toLine, Instr.mnemonic, Nat.mod_eq_of_lt hx, Nat.mod_eq_of_lt hy, Nat.mod_eq_of_lt hd]⟩

/-- Settles O5: `Instr.toInstr_toLine` one way, `AsmLine.exists_toInstr` the other. -/
theorem linesAndInstructionsAgree : Obligations.LinesAndInstructionsAgree :=
  ⟨fun i => ⟨i.toLine_wellFormed, i.toInstr_toLine⟩, AsmLine.exists_toInstr⟩

end Sys2Proof
end

section
/-!
SUPPORT. The step of a running core by what the decoder reads from the fetched word (spec/30_encoding.md R54, R58).
-/

namespace Sys2Proof.Machine

theorem step_of_decodeWord_ok {s : State} {w : Word} {i : Instr} (hr : s.status = .running) (hf : fetch s = .ok w)
    (hd : decodeWord w = .ok i) : step s = exec i s := by
  simp only [step, hr, hf, hd]

theorem step_of_decodeWord_error {s : State} {w : Word} {e : Reject} (hr : s.status = .running) (hf : fetch s = .ok w)
    (hd : decodeWord w = .error e) : step s = .next (s.raise (some w) .invalidOpcode) := by
  simp only [step, hr, hf, hd]

/-- Settles O7: the fetch of `fetch_of_le`, then `step_of_decodeWord_ok`. -/
theorem stepRunsTheDecodedInstruction : Obligations.StepRunsTheDecodedInstruction := fun s _ hr hpc hd =>
  step_of_decodeWord_ok hr (fetch_of_le s hpc) hd

/-- Settles O10: `decodeWord_of_unassigned`, and `raise` changes nothing but the latch. -/
theorem invalidWordsAreFatal : Obligations.InvalidWordsAreFatal := fun _ _ hr hf hw =>
  ⟨_, step_of_decodeWord_error hr hf (decodeWord_of_unassigned hw), rfl⟩

/-- The word that `withFetchWord` places is the one the next fetch reads (R31, R41). -/
theorem fetch_withFetchWord {s : State} (hwf : s.mem.wf = true) (hpc : s.pc.toNat ≤ 4094) (nbits w : Nat) :
    fetch (s.withFetchWord nbits w) = .ok (tableWord nbits w) := by
  have hread := Memory.read_store [highByte (tableWord nbits w), lowByte (tableWord nbits w)] s.mem s.pc.toNat
    (h := by simp [Config.memSize]; omega) (hw := hwf)
  rw [fetch_of_le (s.withFetchWord nbits w) hpc]
  simp [hread]

/-- Settles O8: `fetch_withFetchWord`, then `step_of_decodeWord_ok`. -/
theorem placedInstructionRuns : Obligations.PlacedInstructionRuns := by
  rintro s w i ⟨hwf, -, -⟩ hr hpc hd
  have hi : decodeWord (tableWord 16 w) = .ok i := by
    rw [decodeTableWord_eq] at hd
    cases h : decodeWord (tableWord 16 w) with
    | ok j => rw [h] at hd; exact congrArg _ (Option.some.inj hd)
    | error e => rw [h] at hd; cases hd
  exact step_of_decodeWord_ok hr (fetch_withFetchWord hwf hpc 16 w) hi

end Sys2Proof.Machine
end

section
/-!
SUPPORT. The control-flow instructions (spec/40_control_flow.md). `CALL` and `RET` have two ends each, and `sp` says which.
-/

namespace Sys2Proof.Machine

variable {s : State}

/-! ### HALT (R71) -/

/-- Only the word 0x0000 is read as `HALT`: the encoder gives back the word that was read. -/
theorem decodeWord_eq_halt_iff (w : Word) : decodeWord w = .ok .halt ↔ w = 0x0000#16 := by
  constructor
  · intro h
    exact (encodeOfDecodeIsIdentity w .halt h).symm
  · rintro rfl
    exact decodeWord_encode .halt

/-- The words up to 0x0FFF are those whose leading nibble is 0 (R51). -/
theorem fieldC_eq_zero_of_le {w : Word} (h : w.toNat ≤ 0x0FFF) : fieldC w = 0x0#4 := by
  apply BitVec.eq_of_toNat_eq
  rw [fieldC_toNat, BitVec.toNat_ofNat]; omega

/-- Settles O24: `HALT` only advances and sets the latch; the other words with leading nibble 0 are of R58. -/
theorem haltStopsTheCore : Obligations.HaltStopsTheCore :=
  ⟨fun s => ⟨s.advance.halt, rfl, rfl, rfl, rfl, SameRegs.of_regs rfl, rfl, SameStack.of_fields rfl rfl,
      SameMemory.of_mem rfl, SameDisplay.of_disp rfl⟩,
    fun w => ⟨decodeWord_eq_halt_iff w,
      fun hle hhalt hret => decodeWord_of_unassigned (.inl ⟨fieldC_eq_zero_of_le hle, hhalt, hret⟩)⟩⟩

/-! ### The jumps (R72, R75) -/

/-- Settles O25: `JUMP` writes `pc` alone, and widening `nnn` keeps the number. -/
theorem jumpGoesToItsTarget : Obligations.JumpGoesToItsTarget := fun nnn s =>
  ⟨s.jumpTo (zext16 nnn), rfl, zext16_toNat nnn, s.reg_jumpTo _ 15, s.jumpTo_status _⟩

/-- The sum of `JUMPV0` is at most 0x10FE, so 16 bits hold it. -/
theorem jumpv0Target_toNat (v : Byte) (nnn : Addr12) : (jumpv0Target v nnn).toNat = v.toNat + nnn.toNat := by
  rw [jumpv0Target, BitVec.toNat_ofNat]; omega

/-- Settles O28: `JUMPV0` writes `pc` alone, with the sum of `jumpv0Target_toNat`. -/
theorem jumpV0AddsRegisterZero : Obligations.JumpV0AddsRegisterZero := fun nnn s =>
  ⟨s.jumpTo (jumpv0Target (s.reg 0) nnn), rfl, jumpv0Target_toNat (s.reg 0) nnn, s.reg_jumpTo _ 15, s.jumpTo_status _⟩

/-! ### CALL (R73) -/

theorem exec_call_of_lt (nnn : Addr12) (h : s.sp.val < 16) :
    exec (.call nnn) s = .next
      { s with
        stack := s.stack.set s.sp.val (s.pc + 2#16) h
        sp := ⟨s.sp.val + 1, Nat.succ_lt_succ h⟩
        pc := zext16 nnn } := by
  rcases execCall_cases nnn s with ⟨hfull, _⟩ | ⟨_, e⟩
  · omega
  · exact e

theorem exec_call_of_full (nnn : Addr12) (h : s.sp.val = 16) :
    exec (.call nnn) s = .next (s.raise (some (encode (.call nnn))) .stackOverflow) := by
  rcases execCall_cases nnn s with ⟨_, e⟩ | ⟨hfree, _⟩
  · exact e
  · omega

/-- Settles O26: the two ends of `CALL`; the slot that `sp` named holds the word put there. -/
theorem callPushesAndJumps : Obligations.CallPushesAndJumps := fun nnn s =>
  ⟨fun h => ⟨_, exec_call_of_lt nnn h, (slot_set s.stack ⟨s.sp.val, h⟩ ⟨s.sp.val, h⟩ _).trans (if_pos rfl), rfl,
      zext16_toNat nnn, SameRegs.of_regs rfl, rfl, rfl⟩,
    fun h => ⟨_, exec_call_of_full nnn h, rfl⟩⟩

/-! ### RET (R74) -/

theorem exec_ret_of_pos (h : 0 < s.sp.val) :
    exec .ret s = .next { s with sp := ⟨s.sp.val - 1, by omega⟩, pc := s.slot ⟨s.sp.val - 1, by omega⟩ } := by
  rcases execRet_cases s with ⟨hempty, _⟩ | ⟨_, e⟩
  · omega
  · exact e

theorem exec_ret_of_empty (h : s.sp.val = 0) :
    exec .ret s = .next (s.raise (some (encode .ret)) .stackUnderflow) := by
  rcases execRet_cases s with ⟨_, e⟩ | ⟨hpending, _⟩
  · exact e
  · exact absurd h hpending

/-- A `RET` straight after a `CALL` pops the slot that the `CALL` filled: it goes to the word after the `CALL`, with `sp`
as it was. -/
theorem exec_ret_after_call (nnn : Addr12) (h : s.sp.val < 16) :
    ∃ t u, exec (.call nnn) s = .next t ∧ exec .ret t = .next u ∧ u.pc = s.pc + 2#16 ∧ u.sp = s.sp := by
  obtain ⟨hcompletes, -⟩ := callPushesAndJumps nnn s
  obtain ⟨t, hcall, hslot, hsp, -⟩ := hcompletes h
  have hpop : t.sp.val - 1 = s.sp.val := by omega
  refine ⟨t, _, hcall, exec_ret_of_pos (by omega), ?_, Fin.ext hpop⟩
  simpa only [hpop] using hslot

/-- Settles O27: the two ends of `RET`, which leaves the slots, and `exec_ret_after_call`. -/
theorem retReturnsToTheSavedPc : Obligations.RetReturnsToTheSavedPc :=
  ⟨fun _ => ⟨fun h => ⟨_, exec_ret_of_pos h, rfl, rfl, fun _ => rfl, SameRegs.of_regs rfl, rfl⟩,
      fun h => ⟨_, exec_ret_of_empty h, rfl⟩⟩,
    fun nnn _ h => exec_ret_after_call nnn h⟩

end Sys2Proof.Machine
end

section
/-!
SUPPORT. The conditional skips (spec/41_skips.md). Each is `State.skipIf` on an equality of bytes or on its negation, so a
pair of them is one fact about two bytes.
-/

namespace Sys2Proof.Machine

variable {a b : Byte}

/-! ### The common rule (R80) -/

@[simp] theorem State.skipIf_true_pc (s : State) : (s.skipIf true).pc = s.pc + 4#16 := by rw [State.skipIf_eq]; rfl
@[simp] theorem State.skipIf_false_pc (s : State) : (s.skipIf false).pc = s.pc + 2#16 := rfl

@[simp] theorem State.reg_skipIf (s : State) (c : Bool) (r : Reg) : (s.skipIf c).reg r = s.reg r := by
  rw [State.skipIf_eq, State.reg_jumpTo]

@[simp] theorem State.skipIf_status (s : State) (c : Bool) : (s.skipIf c).status = s.status := by
  rw [State.skipIf_eq, State.jumpTo_status]

/-! ### Skip if equal, skip if different -/

theorem skipIf_pc_of_eq (s : State) (h : a = b) :
    (s.skipIf (a == b)).pc = s.pc + 4#16 ∧ (s.skipIf (a != b)).pc = s.pc + 2#16 := by
  simp [h]

theorem skipIf_pc_of_ne (s : State) (h : a ≠ b) :
    (s.skipIf (a == b)).pc = s.pc + 2#16 ∧ (s.skipIf (a != b)).pc = s.pc + 4#16 := by
  rw [beq_eq_false_iff_ne.mpr h, bne_iff_ne.mpr h]
  exact ⟨s.skipIf_false_pc, s.skipIf_true_pc⟩

/-- Settles O29: the two outcomes of comparing the register with `nn`; a skip writes `pc` alone. -/
theorem immediateSkipsCompare : Obligations.ImmediateSkipsCompare := fun _ _ s =>
  ⟨s.skipIf _, s.skipIf _, rfl, rfl, skipIf_pc_of_eq s, skipIf_pc_of_ne s,
    s.reg_skipIf _ 15, s.reg_skipIf _ 15, s.skipIf_status _, s.skipIf_status _⟩

/-- Settles O30: the same for two registers, where `x = y` makes the values equal; the words with `d != 0` are of R58. -/
theorem registerSkipsCompare : Obligations.RegisterSkipsCompare := by
  refine ⟨fun x y s => ⟨s.skipIf _, s.skipIf _, rfl, rfl, skipIf_pc_of_eq s, skipIf_pc_of_ne s,
    fun hxy => skipIf_pc_of_eq s (congrArg s.reg hxy),
    s.reg_skipIf _ 15, s.reg_skipIf _ 15, s.skipIf_status _, s.skipIf_status _⟩, ?_⟩
  rintro w (hc | hc) hd
  · exact decodeWord_of_unassigned (.inr (.inl ⟨hc, hd⟩))
  · exact decodeWord_of_unassigned (.inr (.inr (.inr (.inr (.inl ⟨hc, hd⟩)))))

end Sys2Proof.Machine
end

section
/-!
SUPPORT. The register and ALU instructions (spec/42_alu.md): where a result and a flag end up, what each result is as a
number or bit by bit, and RAND, which draws a byte from the port.
-/

namespace Sys2Proof.Machine

variable {x : Reg} {a b nn r : Byte}

/-! ### Where the result and the flag end up (R91) -/

@[simp] theorem State.reg_finish_self (s : State) (x : Reg) (v : Byte) : (s.finish x v).reg x = v := by
  rw [State.reg_finish, if_pos rfl]

/-- An instruction without a flag leaves `x[15]`, unless it is the destination. -/
theorem State.reg_finish_flag (s : State) (v : Byte) (hx : x ≠ 15) : (s.finish x v).reg 15 = s.reg 15 :=
  s.finish_sameRegsBut x v 15 hx.symm

/-- The flag is what remains in `x[15]`, whatever the destination. -/
@[simp] theorem State.reg_finishWithFlag_flag (s : State) (x : Reg) (v flag : Byte) :
    (s.finishWithFlag x v flag).reg 15 = flag := by
  rw [State.reg_finishWithFlag, if_pos rfl]

theorem State.reg_finishWithFlag_self (s : State) (v flag : Byte) (hx : x ≠ 15) :
    (s.finishWithFlag x v flag).reg x = v := by
  rw [State.reg_finishWithFlag, if_neg hx, if_pos rfl]

/-- Writing a register's own value changes no register. -/
theorem State.finish_own_sameRegs (s : State) (x : Reg) : SameRegs s (s.finish x (s.reg x)) := fun r => by
  rw [State.reg_finish]
  split
  case isTrue h => rw [h]
  case isFalse => rfl

/-- The flag of a decided condition (R12). -/
theorem flagByte_decide (p : Prop) [Decidable p] : flagByte (decide p) = if p then 1#8 else 0#8 := by
  simp only [flagByte, decide_eq_true_eq]

/-! ### The results as numbers (R93, R98, R99, R100) -/

theorem addResult_toNat (a b : Byte) : (addResult a b).toNat = (a.toNat + b.toNat) % 256 := BitVec.toNat_ofNat _ 8

@[simp] theorem addResult_zero (a : Byte) : addResult a 0#8 = a := by simp [addResult]

/-- Adding `256 - k` subtracts `k`, when there is no borrow (R93). -/
theorem addResult_toNat_of_complement {k : Nat} (hnn : b.toNat = 256 - k) (hk : k ≤ 255) (ha : k ≤ a.toNat) :
    (addResult a b).toNat = a.toNat - k := by
  rw [addResult_toNat]; omega

/-- The two cases of the subtraction are the one difference modulo 256. -/
theorem subResult_toNat (a b : Byte) : ((subResult a b).toNat : Int) = (a.toNat - b.toNat : Int) % 256 := by
  rw [subResult]
  split <;> rw [BitVec.toNat_ofNat] <;> omega

/-! ### The shifts bit by bit (R101, R102) -/

theorem shrResult_eq (a : Byte) : shrResult a = a >>> 1 := by
  apply BitVec.eq_of_toNat_eq
  rw [shrResult, BitVec.toNat_ofNat, BitVec.toNat_ushiftRight, Nat.shiftRight_eq_div_pow]; omega

theorem shlResult_eq (a : Byte) : shlResult a = a <<< 1 := by
  apply BitVec.eq_of_toNat_eq
  rw [shlResult, BitVec.toNat_ofNat, BitVec.toNat_shiftLeft, Nat.shiftLeft_eq]; omega

theorem shrResult_getLsbD (a : Byte) (k : Nat) : (shrResult a).getLsbD k = a.getLsbD (k + 1) := by
  rw [shrResult_eq, BitVec.getLsbD_ushiftRight, Nat.add_comm]

theorem shlResult_getLsbD_succ (a : Byte) {k : Nat} (hk : k < 7) : (shlResult a).getLsbD (k + 1) = a.getLsbD k := by
  have hin : k + 1 < 8 := by omega
  rw [shlResult_eq, BitVec.getLsbD_shiftLeft]
  simp [hin, -BitVec.getLsbD_eq_getElem]

theorem shlResult_getLsbD_zero (a : Byte) : (shlResult a).getLsbD 0 = false := by
  simp [shlResult_eq]

/-! ### The random port and the mask (R24, R103) -/

theorem RandomPort.draw_of_offered {p : RandomPort} {rest : List Byte} (h : p.offered = b :: rest) :
    p.draw = (b, { offered := rest, draws := p.draws + 1 }) := by
  rw [RandomPort.draw, h]

theorem masked_and_not (nn b : Byte) : (nn &&& b) &&& ~~~nn = 0#8 := by
  rw [BitVec.and_comm nn b, BitVec.and_assoc, BitVec.and_not_self]
  exact BitVec.and_zero

/-- A byte with no bit outside the mask is kept by the mask. -/
theorem masked_of_and_not (h : r &&& ~~~nn = 0#8) : nn &&& r = r := by
  calc nn &&& r = (r &&& nn) ||| (r &&& ~~~nn) := by rw [h, BitVec.or_zero, BitVec.and_comm]
    _ = r &&& (nn ||| ~~~nn) := BitVec.and_or_distrib_left.symm
    _ = r := by rw [BitVec.or_not_self, BitVec.and_allOnes]

/-- Register 0 takes the mask of the byte drawn, and the field `x` says nothing (R60). -/
theorem exec_rand_masks_draw (x : Reg) (nn : Byte) (s : State) :
    ∃ t, exec (.rand x nn) s = .next t ∧ t.reg 0 = nn &&& s.random.draw.1 ∧ (∀ r, r ≠ 0 → t.reg r = s.reg r) ∧
      t.random = s.random.draw.2 ∧ t.pc = s.pc + 2#16 ∧ t.status = s.status :=
  ⟨_, exec_rand x nn s, s.reg_finish_self reg0 _, s.finish_sameRegsBut reg0 _, rfl, rfl, rfl⟩

/-- Settles O40: the register after `RAND` is a masked byte; a result inside `nn` comes of offering that byte itself. -/
theorem randMasksAFreshByte : Obligations.RandMasksAFreshByte := by
  intro x nn s
  constructor
  · obtain ⟨t, e, hreg, hothers, hport, hpc, hstatus⟩ := exec_rand_masks_draw x nn s
    refine ⟨t, e, ?_, hothers, fun b rest hoffered => ?_, ?_, hpc, hstatus⟩
    · rw [hreg, masked_and_not]
    · rw [hreg, hport, RandomPort.draw_of_offered hoffered]
      exact ⟨rfl, rfl⟩
    · rw [hport, RandomPort.draw_draws]
  · intro r hr
    obtain ⟨t, e, hreg, -⟩ := exec_rand_masks_draw x nn (s.offer [r])
    exact ⟨r, t, e, hreg.trans (masked_of_and_not hr)⟩

/-! ### The instructions without a flag (R92 to R97) -/

/-- Settles O31: `LDI` ends by writing `nn`. -/
theorem ldiLoadsTheImmediate : Obligations.LdiLoadsTheImmediate := fun x nn s =>
  ⟨s.finish x nn, rfl, s.reg_finish_self x nn, s.reg_finish_flag nn, rfl, rfl⟩

/-- Settles O32: `ADDI` ends by writing the sum, of which the two corner cases are facts of their own. -/
theorem addiAddsWithoutFlag : Obligations.AddiAddsWithoutFlag := by
  intro x nn s
  have hx : (s.finish x (addResult (s.reg x) nn)).reg x = addResult (s.reg x) nn := s.reg_finish_self x _
  refine ⟨_, rfl, ?_, s.reg_finish_flag _, ?_, ?_, rfl, rfl⟩
  · rw [hx, addResult_toNat]
  · rintro rfl
    rw [hx, addResult_zero]
  · intro k _ hk hnn hle
    rw [hx, addResult_toNat_of_complement hnn hk hle]

/-- Settles O33: `MOV` ends by writing the other register's value, with `x = y` its own. -/
theorem movCopiesARegister : Obligations.MovCopiesARegister := by
  intro x y s
  refine ⟨s.finish x (s.reg y), rfl, s.reg_finish_self x _, s.reg_finish_flag _, ?_, rfl, rfl⟩
  rintro rfl
  exact s.finish_own_sameRegs x

/-- Settles O34: the three end by writing the bit vector operation, whose bits are the library's. -/
theorem logicWorksBitByBit : Obligations.LogicWorksBitByBit := by
  intro x y s
  refine ⟨s.finish x (s.reg x ||| s.reg y), s.finish x (s.reg x &&& s.reg y), s.finish x (s.reg x ^^^ s.reg y),
    rfl, rfl, rfl, fun k _ => ?_, fun k _ => ?_, fun k _ => ?_, ?_,
    fun hx => ⟨s.reg_finish_flag _ hx, s.reg_finish_flag _ hx, s.reg_finish_flag _ hx⟩,
    rfl, rfl, rfl, rfl, rfl, rfl⟩
  · rw [State.reg_finish_self, BitVec.getLsbD_or]
  · rw [State.reg_finish_self, BitVec.getLsbD_and]
  · rw [State.reg_finish_self, BitVec.getLsbD_xor]
  · rintro rfl
    simp

/-! ### The instructions with a flag (R98 to R102) -/

/-- Settles O35: `ADD` ends by writing the sum and the carry. -/
theorem addGivesSumAndCarry : Obligations.AddGivesSumAndCarry := by
  intro x y s
  refine ⟨_, rfl, fun hx => ?_, ?_, rfl, rfl⟩
  · rw [State.reg_finishWithFlag_self _ _ _ hx, addResult_toNat]
  · rw [State.reg_finishWithFlag_flag, carryFlag, flagByte_decide]

/-- What `SUB` and `SUBR` end by writing: the difference of two bytes and its no-borrow flag (R99, R100). -/
theorem State.reg_finishWithFlag_difference (s : State) (x : Reg) (a b : Byte) :
    (x ≠ 15 → (((s.finishWithFlag x (subResult a b) (noBorrowFlag a b)).reg x).toNat : Int) =
      (a.toNat - b.toNat : Int) % 256) ∧
    (s.finishWithFlag x (subResult a b) (noBorrowFlag a b)).reg 15 = if b.toNat ≤ a.toNat then 1#8 else 0#8 := by
  refine ⟨fun hx => ?_, ?_⟩
  · rw [State.reg_finishWithFlag_self _ _ _ hx, subResult_toNat]
  · rw [State.reg_finishWithFlag_flag, noBorrowFlag, flagByte_decide]

/-- Settles O36: `SUB` writes the difference `x[x] - x[y]`. -/
theorem subGivesDifferenceAndNoBorrow : Obligations.SubGivesDifferenceAndNoBorrow := fun x y s =>
  have ⟨hresult, hflag⟩ := s.reg_finishWithFlag_difference x (s.reg x) (s.reg y)
  ⟨_, rfl, hresult, hflag, rfl, rfl⟩

/-- Settles O37: `SUBR` writes the difference `x[y] - x[x]`. -/
theorem subrSubtractsTheOtherWay : Obligations.SubrSubtractsTheOtherWay := fun x y s =>
  have ⟨hresult, hflag⟩ := s.reg_finishWithFlag_difference x (s.reg y) (s.reg x)
  ⟨_, rfl, hresult, hflag, rfl, rfl⟩

/-- Settles O38: bit `k` of the half is bit `k + 1`, and a byte has no bit 8. -/
theorem shrShiftsRightByOne : Obligations.ShrShiftsRightByOne := by
  intro x s
  refine ⟨_, rfl, fun hx => ?_, s.reg_finishWithFlag_flag x _ _, rfl, rfl⟩
  rw [State.reg_finishWithFlag_self _ _ _ hx]
  exact ⟨fun k _ => shrResult_getLsbD _ k, (shrResult_getLsbD _ 7).trans (BitVec.getLsbD_of_ge _ 8 le_rfl)⟩

/-- Settles O39: bit `k + 1` of the double is bit `k`, and bit 0 is clear. -/
theorem shlShiftsLeftByOne : Obligations.ShlShiftsLeftByOne := by
  intro x s
  refine ⟨_, rfl, fun hx => ?_, s.reg_finishWithFlag_flag x _ _, rfl, rfl⟩
  rw [State.reg_finishWithFlag_self _ _ _ hx]
  exact ⟨fun _ hk => shlResult_getLsbD_succ _ hk, shlResult_getLsbD_zero _⟩

end Sys2Proof.Machine
end

section
/-!
SUPPORT. The memory-indirection instructions (spec/43_memory_indirection.md): what `LOAD` and `BCD` do with all their
bytes inside memory, what `DUMP`, `LOAD` and `BCD` do with one outside, and what a read finds after a store.
-/

namespace Sys2Proof.Machine

variable {x : Reg} {s : State}

/-! ### The address register (R111, R112) -/

/-- Settles O41: `zext16` keeps the number. -/
theorem setiLoadsTheAddress : Obligations.SetiLoadsTheAddress := fun nnn _ =>
  ⟨_, rfl, zext16_toNat nnn, rfl, rfl, rfl⟩

theorem addaResult_toNat (i : Word) (v : Byte) : (addaResult i v).toNat = (i.toNat + v.toNat) % 65536 :=
  BitVec.toNat_ofNat _ 16

/-- Settles O42: the sum is cut to 16 bits. -/
theorem addaAddsToTheAddress : Obligations.AddaAddsToTheAddress := fun x s =>
  ⟨_, rfl, addaResult_toNat s.I (s.reg x), rfl, rfl, rfl⟩

/-! ### All bytes inside memory, or one outside (R110) -/

/-- `LOAD` with all its bytes inside memory loads (R114). -/
theorem exec_load_of_le (h : s.I.toNat + x.val ≤ 4095) :
    exec (.load x) s = .next { s.advance with regs := loadRegs s.mem s.I.toNat s.regs (x.val + 1) } := by
  rcases execLoad_cases x s with ⟨hout, _⟩ | ⟨_, e⟩
  · omega
  · exact e

/-- `BCD` with all its bytes inside memory stores (R115). -/
theorem exec_bcd_of_le (h : s.I.toNat + 2 ≤ 4095) :
    exec (.bcd x) s = .next { s.advance with mem := s.mem.store s.I.toNat (bcdDigits (s.reg x)) } := by
  rcases execBcd_cases x s with ⟨hout, _⟩ | ⟨_, e⟩
  · omega
  · exact e

/-- `DUMP` with a byte outside memory raises (R110). -/
theorem exec_dump_of_gt (h : 4096 ≤ s.I.toNat + x.val) :
    exec (.dump x) s = .next (s.raise (some (encode (.dump x))) (.memoryBounds (max s.I.toNat 4096))) := by
  rcases execDump_cases x s with ⟨_, e⟩ | ⟨hin, _⟩
  · exact e
  · omega

/-- `LOAD` with a byte outside memory raises (R110). -/
theorem exec_load_of_gt (h : 4096 ≤ s.I.toNat + x.val) :
    exec (.load x) s = .next (s.raise (some (encode (.load x))) (.memoryBounds (max s.I.toNat 4096))) := by
  rcases execLoad_cases x s with ⟨_, e⟩ | ⟨hin, _⟩
  · exact e
  · omega

/-- `BCD` with a byte outside memory raises (R110). -/
theorem exec_bcd_of_gt (h : 4096 ≤ s.I.toNat + 2) :
    exec (.bcd x) s = .next (s.raise (some (encode (.bcd x))) (.memoryBounds (max s.I.toNat 4096))) := by
  rcases execBcd_cases x s with ⟨_, e⟩ | ⟨hin, _⟩
  · exact e
  · omega

/-- Settles O46: `raise` records the fault and changes nothing else. -/
theorem accessOutsideMemoryIsFatal : Obligations.AccessOutsideMemoryIsFatal := fun _ _ =>
  ⟨fun h => ⟨⟨_, exec_dump_of_gt h, rfl⟩, ⟨_, exec_load_of_gt h, rfl⟩⟩, fun h => ⟨_, exec_bcd_of_gt h, rfl⟩⟩

/-! ### DUMP and LOAD (R113, R114) -/

/-- Settles O43: the stored bytes by `State.read_store_firstRegs`, the other bytes by the frame of the stores. -/
theorem dumpStoresTheRegisters : Obligations.DumpStoresTheRegisters := by
  rintro x s ⟨hwf, -, -⟩ hin
  have hexec := exec_dump_of_le hin
  exact ⟨_, hexec, State.read_store_firstRegs hwf hin, (RaisedOrStored.of_dump hexec).sameMemoryBut hwf, rfl,
    SameRegs.of_regs rfl, rfl, rfl⟩

/-- `LOAD`'s loop over `x + 1` registers fills those up to `x` (R114). -/
theorem loadRegs_get_of_le (m : Memory) (base : Nat) (regs : Vector Byte 16) {k : Reg} (hk : k.val ≤ x.val) :
    (loadRegs m base regs (x.val + 1))[k] = m.read (base + k.val) :=
  (loadRegs_get m base regs (x.val + 1) k).trans (if_pos (by omega))

/-- Settles O44: the loaded registers by `loadRegs_get_of_le`, the others by the frame of `LOAD`. -/
theorem loadFillsTheRegisters : Obligations.LoadFillsTheRegisters := by
  intro x s hin
  have hexec := exec_load_of_le hin
  exact ⟨_, hexec, fun _ hk => loadRegs_get_of_le s.mem s.I.toNat s.regs hk, load_sameRegsBut hexec,
    SameMemory.of_mem rfl, rfl, rfl, rfl⟩

/-- Settles O47: the `DUMP` (O43) leaves `I`, so the `LOAD` (O44) reads the bytes that the `DUMP` stored. -/
theorem dumpThenLoadRestores : Obligations.DumpThenLoadRestores := by
  intro x s regs hs hin
  obtain ⟨t, hdump, hstored, -, hI, -⟩ := dumpStoresTheRegisters x s hs hin
  obtain ⟨u, hload, hloaded, -⟩ := loadFillsTheRegisters x { t with regs := regs } (by rw [hI]; exact hin)
  refine ⟨t, u, hdump, hload, fun k hk => ?_⟩
  calc u.reg k = t.mem.read (t.I.toNat + k.val) := hloaded k hk
    _ = t.mem.read (s.I.toNat + k.val) := by rw [hI]
    _ = s.reg k := hstored k hk

/-! ### BCD (R115) -/

/-- What `BCD` stored at `I + k` is the digit `k` (R115). -/
theorem State.read_store_bcdDigits (hwf : s.mem.wf = true) (h : s.I.toNat + 2 ≤ 4095) (v : Byte) {k : Nat}
    (hk : k ≤ 2) : (s.mem.store s.I.toNat (bcdDigits v)).read (s.I.toNat + k) = (bcdDigits v).getD k 0#8 := by
  have hlength : (bcdDigits v).length = 3 := rfl
  rw [Memory.read_store _ _ _ _ (by simp only [hlength, Config.memSize]; omega) hwf, if_pos (by omega),
    Nat.add_sub_cancel_left]

/-- The hundreds, the tens and the ones of a byte, as numbers. -/
theorem bcdDigits_toNat (v : Byte) :
    ((bcdDigits v).getD 0 0#8).toNat = v.toNat / 100 ∧ ((bcdDigits v).getD 1 0#8).toNat = v.toNat / 10 % 10 ∧
      ((bcdDigits v).getD 2 0#8).toNat = v.toNat % 10 := by
  have hv := v.isLt
  have toNat_digit {n : Nat} (hn : n < 256) : (BitVec.ofNat 8 n).toNat = n :=
    (BitVec.toNat_ofNat n 8).trans (Nat.mod_eq_of_lt hn)
  exact ⟨toNat_digit (by omega), toNat_digit (by omega), toNat_digit (by omega)⟩

/-- Settles O45: the three bytes at `I` read as the digits of `x[x]`, which are at most 2, 9 and 9. -/
theorem bcdStoresTheDigits : Obligations.BcdStoresTheDigits := by
  rintro x s ⟨hwf, -, -⟩ hin
  have hexec := exec_bcd_of_le (x := x) hin
  have hread (k : Nat) (hk : k ≤ 2) := State.read_store_bcdDigits hwf hin (s.reg x) hk
  have hread0 := hread 0 (by omega)
  obtain ⟨hhundreds, htens, hones⟩ := bcdDigits_toNat (s.reg x)
  have hbyte := (s.reg x).isLt
  rw [Nat.add_zero] at hread0
  refine ⟨_, hexec, ?_, ?_, ?_, ?_, (RaisedOrStored.of_bcd hexec).sameMemoryBut hwf, rfl, SameRegs.of_regs rfl, rfl, rfl⟩
  · rw [hread0, hread 1 (by omega), hread 2 (by omega), hhundreds, htens, hones]; omega
  · rw [hread0, hhundreds]; omega
  · rw [hread 1 (by omega), htens]; omega
  · rw [hread 2 (by omega), hones]; omega

end Sys2Proof.Machine
end

section
/-!
SUPPORT. The display (spec/44_display.md): a drawing is the XOR of the display with the sprite laid over it, and its
collision is a pixel that the XOR put out.
-/

namespace Sys2Proof.Machine

variable {x y : Reg} {s t : State}

/-- The bit that `DRAW` lays over pixel `(r, c)`: the sprite's inside the rectangle, unset outside (R121, R123). -/
def State.spritePixel (s : State) (x y : Reg) (d r c : Nat) : Bool :=
  decide ((s.reg y).toNat ≤ r ∧ r < (s.reg y).toNat + d ∧ (s.reg x).toNat ≤ c ∧ c < (s.reg x).toNat + 8) &&
    spriteBit (s.mem.read (s.I.toNat + (r - (s.reg y).toNat))) (c - (s.reg x).toNat)

/-- The state after a `DRAW` that completes (R123). -/
def State.drawn (s : State) (x y : Reg) (d : Nat) : State :=
  { s.finish flagReg (collisionFlag (s.drawing x y d)) with disp := (s.drawing x y d).disp }

/-! ### The sprite as an overlay -/

theorem State.spritePixel_inside (s : State) (x y : Reg) {d r b : Nat} (hr : r < d) (hb : b < 8) :
    s.spritePixel x y d ((s.reg y).toNat + r) ((s.reg x).toNat + b) =
      (s.mem.read (s.I.toNat + r)).getLsbD (7 - b) := by
  simp [spritePixel, spriteBit, hr, hb]

theorem State.spritePixel_rect {d r c : Nat} (h : s.spritePixel x y d r c = true) :
    ((s.reg y).toNat ≤ r ∧ r < (s.reg y).toNat + d) ∧ (s.reg x).toNat ≤ c ∧ c < (s.reg x).toNat + 8 := by
  simp only [spritePixel, Bool.and_eq_true, decide_eq_true_eq] at h
  obtain ⟨⟨hy, hy', hx⟩, -⟩ := h
  exact ⟨⟨hy, hy'⟩, hx⟩

theorem State.spritePixel_congr (hx : t.reg x = s.reg x) (hy : t.reg y = s.reg y) (hI : t.I = s.I)
    (hmem : t.mem = s.mem) (d r c : Nat) : t.spritePixel x y d r c = s.spritePixel x y d r c := by
  simp only [spritePixel, hx, hy, hI, hmem]

/-! ### The registers after a drawing -/

theorem State.drawn_sameRegsBut (s : State) (x y : Reg) (d : Nat) : SameRegsBut (· = 15) s (s.drawn x y d) :=
  s.finish_sameRegsBut flagReg _

@[simp] theorem State.drawn_flag (s : State) (x y : Reg) (d : Nat) :
    (s.drawn x y d).reg 15 = flagByte (s.drawing x y d).collision :=
  s.reg_finish_self flagReg _

/-! ### A rectangle that is empty or lies on the display -/

section

variable {d : Nat} (hrect : d = 0 ∨ (s.reg x).toNat ≤ 56 ∧ (s.reg y).toNat + d ≤ 32)

include hrect

/-- A drawing XORs every pixel with the sprite's (R123). -/
theorem State.drawing_pixel (r c : Nat) :
    Display.pixel (s.drawing x y d).disp r c = (Display.pixel s.disp r c ^^ s.spritePixel x y d r c) := by
  rcases hrect with rfl | ⟨hx, hy⟩
  · have hclear : s.spritePixel x y 0 r c = false := by
      by_contra h
      have := State.spritePixel_rect (Bool.eq_true_of_not_eq_false h)
      omega
    rw [hclear, Bool.xor_false]
    rfl
  · exact drawRows_pixel _ _ _ _ _ _ _ _ hy (by omega)

/-- A collision is a set bit of the sprite on a lit pixel (R123). -/
theorem State.drawing_collision :
    (s.drawing x y d).collision = true ↔
      ∃ r < 32, ∃ c < 64, Display.pixel s.disp r c = true ∧ s.spritePixel x y d r c = true := by
  rcases hrect with rfl | ⟨hx, hy⟩
  · constructor
    · intro h
      cases h
    · rintro ⟨r, -, c, -, -, hset⟩
      have := State.spritePixel_rect hset
      omega
  · rw [State.drawing, drawRows_collision _ _ _ _ _ _ hy (by omega)]
    constructor
    · rintro (h | ⟨r, hr, b, hb, hlit, hset⟩)
      · cases h
      · exact ⟨_, by omega, _, by omega, hlit, (s.spritePixel_inside x y hr hb).trans hset⟩
    · rintro ⟨r, -, c, -, hlit, hset⟩
      obtain ⟨⟨hr, hr'⟩, hc, hc'⟩ := State.spritePixel_rect hset
      obtain ⟨r, rfl⟩ := Nat.exists_eq_add_of_le hr
      obtain ⟨c, rfl⟩ := Nat.exists_eq_add_of_le hc
      have hb : c < 8 := by omega
      have hd : r < d := by omega
      exact .inr ⟨r, hd, c, hb, hlit, (s.spritePixel_inside x y hd hb).symm.trans hset⟩

/-- A collision is a pixel that goes from lit to unlit. -/
theorem State.drawing_collision_iff_put_out :
    (s.drawing x y d).collision = true ↔
      ∃ r < 32, ∃ c < 64, Display.pixel s.disp r c = true ∧ Display.pixel (s.drawing x y d).disp r c = false := by
  have hiff (r c : Nat) : (Display.pixel s.disp r c = true ∧ s.spritePixel x y d r c = true) ↔
      (Display.pixel s.disp r c = true ∧ Display.pixel (s.drawing x y d).disp r c = false) := by
    rw [State.drawing_pixel hrect]
    refine and_congr_right fun hlit => ?_
    rw [hlit, Bool.true_xor, Bool.not_eq_false']
  simp only [State.drawing_collision hrect, hiff]

/-- The flag tells whether some pixel went from lit to unlit (R123). -/
theorem State.drawn_flag_cases :
    ((s.drawn x y d).reg 15 = 1#8 ∧ ∃ r < 32, ∃ c < 64,
      Display.pixel s.disp r c = true ∧ Display.pixel (s.drawn x y d).disp r c = false) ∨
    ((s.drawn x y d).reg 15 = 0#8 ∧ ∀ r < 32, ∀ c < 64,
      Display.pixel s.disp r c = true → Display.pixel (s.drawn x y d).disp r c = true) := by
  rw [State.drawn_flag]
  have hiff := State.drawing_collision_iff_put_out hrect
  cases hcollision : (s.drawing x y d).collision
  case true => exact .inl ⟨rfl, hiff.mp hcollision⟩
  case false =>
    refine .inr ⟨rfl, fun r hr c hc hlit => Bool.eq_true_of_not_eq_false fun hout => ?_⟩
    rw [hiff.mpr ⟨r, hr, c, hc, hlit, hout⟩] at hcollision
    cases hcollision

end

/-! ### DRAW with its rectangle inside, and outside (R122) -/

/-- `DRAW` with no rows, or with the sprite in memory and the rectangle on the display, draws. -/
theorem exec_draw_of_inside {d : Fin 16}
    (h : d.val = 0 ∨ (s.I.toNat + d.val ≤ 4096 ∧ (s.reg x).toNat ≤ 56 ∧ (s.reg y).toNat + d.val ≤ 32)) :
    exec (.draw x y d) s = .next (s.drawn x y d.val) := by
  rcases execDraw_cases x y d s with ⟨hout, _⟩ | ⟨hout, _⟩ | ⟨_, e⟩
  · omega
  · omega
  · exact e

/-- Settles O49: the pixels by `State.drawing_pixel`, those outside and the registers by the frame of `DRAW`. -/
theorem drawTogglesTheSprite : Obligations.DrawTogglesTheSprite := by
  intro x y d s hin
  have hexec := exec_draw_of_inside hin
  have hrect := hin.imp_right And.right
  refine ⟨_, hexec, fun r hr b hb => ?_, fun r _ c _ hout => draw_pixel_outside hexec hout,
    State.drawn_flag_cases hrect, s.drawn_sameRegsBut x y d.val, rfl, rfl, rfl⟩
  rw [← s.spritePixel_inside x y hr hb]
  exact State.drawing_pixel hrect _ _

/-- Settles O50: the other two ends of `execDraw_cases` are excluded by the bounds. -/
theorem drawOutsideIsFatal : Obligations.DrawOutsideIsFatal := by
  intro x y d s hd
  constructor
  · intro hout
    rcases execDraw_cases x y d s with ⟨_, e⟩ | ⟨hin, _⟩ | ⟨hin, _⟩
    · exact ⟨_, e, rfl⟩
    · omega
    · omega
  · intro hin hrect
    rcases execDraw_cases x y d s with ⟨hout, _⟩ | ⟨_, e⟩ | ⟨hon, _⟩
    · omega
    · exact ⟨_, e, rfl⟩
    · omega

/-- Settles O51: the second `DRAW` finds the same sprite at the same place, and XORing with it twice changes nothing. -/
theorem drawTwiceRestoresTheDisplay : Obligations.DrawTwiceRestoresTheDisplay := by
  intro x y d s hx15 hy15 hin
  let t := s.drawn x y d.val
  have hx : t.reg x = s.reg x := s.drawn_sameRegsBut x y d.val x hx15
  have hy : t.reg y = s.reg y := s.drawn_sameRegsBut x y d.val y hy15
  have hin' : d.val = 0 ∨ (t.I.toNat + d.val ≤ 4096 ∧ (t.reg x).toNat ≤ 56 ∧ (t.reg y).toNat + d.val ≤ 32) := by
    rw [hx, hy]; exact hin
  refine ⟨t, t.drawn x y d.val, exec_draw_of_inside hin, exec_draw_of_inside hin',
    Display.ext_pixel _ _ fun r _ c _ => ?_⟩
  calc Display.pixel (t.drawing x y d.val).disp r c
      = (Display.pixel t.disp r c ^^ t.spritePixel x y d.val r c) :=
        State.drawing_pixel (hin'.imp_right And.right) r c
    _ = ((Display.pixel s.disp r c ^^ s.spritePixel x y d.val r c) ^^ s.spritePixel x y d.val r c) := by
        rw [State.spritePixel_congr hx hy rfl rfl]
        exact congrArg (· ^^ _) (State.drawing_pixel (hin.imp_right And.right) r c)
    _ = Display.pixel s.disp r c := by rw [Bool.xor_assoc, Bool.xor_self, Bool.xor_false]

end Sys2Proof.Machine
end

section
/-!
SUPPORT. The ports of the core (spec/45_host_interface.md): the answers of the step port, the inspection port, and that
only `RAND` looks at the random port.
-/

namespace Sys2Proof.Machine

variable {s t : State} {i : Instr}

/-! ### The terminal statuses (R133) -/

theorem step_of_halted (h : s.status = .halted) : step s = .fault .stepAfterHalt := by
  simp only [step, h]

theorem step_of_faulted {f : FaultRecord} (h : s.status = .faulted f) : step s = .fault (.stepAfterFatal f) := by
  simp only [step, h]

/-- A request that finds no step is not answered (R133). -/
theorem answer_of_step_fault {r : Fault} (h : step s = .fault r) : answer s = none := by
  simp only [answer, h]

/-- Settles O11: `step` reads the latch first, and without a step there is no answer. -/
theorem terminalStatusHasNoStep : Obligations.TerminalStatusHasNoStep := fun _ =>
  ⟨fun h => ⟨step_of_halted h, answer_of_step_fault (step_of_halted h)⟩,
    fun _ h => ⟨step_of_faulted h, answer_of_step_fault (step_of_faulted h)⟩⟩

/-! ### The inspection port (R137) -/

/-- Settles O16: `inspect` tests the index alone, and a register's index is below 16. -/
theorem inspectionReadsTheRegister : Obligations.InspectionReadsTheRegister := fun _ =>
  ⟨fun r => dif_pos r.isLt, fun _ hn => dif_neg (Nat.not_lt.mpr hn)⟩

/-! ### The step by the instruction at `pc` (R54) -/

theorem State.instrAt_of_gt (h : 4095 ≤ s.pc.toNat) : s.instrAt = none := if_neg (by omega)

theorem State.instrAt_of_fetch {w : Word} (h : fetch s = .ok w) : s.instrAt = (decodeWord w).toOption := by
  by_cases hpc : s.pc.toNat ≤ 4094
  · rw [fetch_of_le s hpc] at h
    cases h
    exact if_pos hpc
  · rw [fetch_of_gt s (by omega)] at h
    cases h

/-- The word 0x0000 is fetched exactly when `HALT` stands at `pc`, as no other word is read as `HALT` (R71). -/
theorem fetch_zero_iff_instrAt_halt (s : State) : fetch s = .ok 0x0000#16 ↔ s.instrAt = some .halt := by
  cases hf : fetch s with
  | error c =>
    have hpc : 4095 ≤ s.pc.toNat := by
      by_contra hle
      rw [fetch_of_le s (by omega)] at hf
      cases hf
    simp [State.instrAt_of_gt hpc]
  | ok w =>
    rw [State.instrAt_of_fetch hf, Except.ok.injEq, ← decodeWord_eq_halt_iff]
    cases decodeWord w <;> simp [Except.toOption]

/-- A running core raises the fault of having no instruction at `pc`, or runs the one there (R54, R144). -/
theorem step_by_instrAt (hr : s.status = .running) :
    (s.instrAt = none ∧ ∃ w c, step s = .next (s.raise w c)) ∨ ∃ i, s.instrAt = some i ∧ step s = exec i s := by
  rcases step_cases s hr with ⟨hpc, _, e⟩ | ⟨w, _, _, hf, hd, e⟩ | ⟨w, i, _, hf, hd, e⟩
  · exact .inl ⟨State.instrAt_of_gt hpc, _, _, e⟩
  · exact .inl ⟨by rw [State.instrAt_of_fetch hf, hd]; rfl, _, _, e⟩
  · exact .inr ⟨i, by rw [State.instrAt_of_fetch hf, hd]; rfl, e⟩

/-! ### The answers of the step port (R132) -/

theorem answer_of_step_next (h : step s = .next t) : answer s = some (Answer.ofStatus t.status) := by
  simp only [answer, h]

/-- R132's table: the answers there are to a request, by the instruction at `pc`. -/
inductive AnswerFits : Option Instr → Answer → Prop where
  | noInstruction (f : FaultRecord) : AnswerFits none (.fatal f)
  | halted : AnswerFits (some .halt) .halted
  | completed {i : Instr} (hi : i ≠ .halt) : AnswerFits (some i) .continues
  | raised {i : Instr} (hi : i ≠ .halt) (f : FaultRecord) : AnswerFits (some i) (.fatal f)

/-- Every instruction answers, and `HALT` raises no fault. -/
theorem exec_answerFits (hr : s.status = .running) (i : Instr) :
    ∃ t, exec i s = .next t ∧ AnswerFits (some i) (Answer.ofStatus t.status) := by
  by_cases hi : i = .halt
  · subst hi
    exact ⟨s.advance.halt, rfl, .halted⟩
  · rcases exec_cases i s with ⟨c, e⟩ | ⟨t, e, hstatus, _⟩ | ⟨hhalt, _⟩
    · exact ⟨_, e, .raised hi _⟩
    · refine ⟨t, e, ?_⟩
      rw [hstatus, hr]
      exact .completed hi
    · exact absurd hhalt hi

/-- Every request to a running core is answered as the table says. -/
theorem step_answerFits (hr : s.status = .running) :
    ∃ t, step s = .next t ∧ AnswerFits s.instrAt (Answer.ofStatus t.status) := by
  rcases step_by_instrAt hr with ⟨hnone, w, c, e⟩ | ⟨i, hsome, e⟩
  · rw [hnone]
    exact ⟨_, e, .noInstruction _⟩
  · rw [hsome, e]
    exact exec_answerFits hr i

/-- Settles O12: the next state and its answer by `step_answerFits`, then one line of R132's table at a time. -/
theorem everyRequestIsAnswered : Obligations.EveryRequestIsAnswered := by
  intro s hr
  obtain ⟨t, e, hfits⟩ := step_answerFits hr
  refine ⟨t, e, answer_of_step_next e, ?_⟩
  rw [answer_of_step_next e, fetch_zero_iff_instrAt_halt]
  generalize s.instrAt = fetched, Answer.ofStatus t.status = given at hfits ⊢
  cases hfits with
  | noInstruction f => simp
  | halted => simp
  | completed hi => simp [hi]
  | raised hi f => simp [hi]

/-! ### The random port (R134) -/

/-- `DRAW` with a sprite byte outside memory raises (R123). -/
theorem exec_draw_of_memory_outside {x y : Reg} {d : Fin 16} (h : 1 ≤ d.val ∧ 4096 < s.I.toNat + d.val) :
    exec (.draw x y d) s = .next (s.raise (some (encode (.draw x y d))) (.memoryBounds (max s.I.toNat 4096))) := by
  rcases execDraw_cases x y d s with ⟨_, e⟩ | ⟨hin, _⟩ | ⟨hin, _⟩
  · exact e
  · omega
  · omega

/-- `DRAW` with its sprite in memory and its rectangle past an edge raises (R122, R144). -/
theorem exec_draw_of_display_outside {x y : Reg} {d : Fin 16}
    (h : 1 ≤ d.val ∧ s.I.toNat + d.val ≤ 4096 ∧ (56 < (s.reg x).toNat ∨ 32 < (s.reg y).toNat + d.val)) :
    exec (.draw x y d) s =
      .next (s.raise (some (encode (.draw x y d))) (.displayBounds (s.reg x) (s.reg y) d)) := by
  rcases execDraw_cases x y d s with ⟨hout, _⟩ | ⟨_, e⟩ | ⟨hon, _⟩
  · omega
  · exact e
  · omega

/-- An outcome with the random port replaced, from the two next states, which differ in the port alone. -/
theorem exec_replacedPort_of_next {p : RandomPort} (e : exec i s = .next t)
    (e' : exec i { s with random := p } = .next { t with random := p }) :
    exec i { s with random := p } = withRandom p (exec i s) := by
  rw [e', e]
  rfl

/-- Settles O17: an instruction with more than one end takes the same one with the port replaced, as the condition for
it does not speak of the port; and no end writes the port or a value read from it. -/
theorem onlyRandReadsTheRandomPort : Obligations.OnlyRandReadsTheRandomPort := by
  intro i s p hi
  cases i with
  | rand x nn => exact absurd rfl hi
  | call nnn =>
    rcases execCall_cases nnn s with ⟨h, e⟩ | ⟨h, e⟩
    · exact exec_replacedPort_of_next e (exec_call_of_full nnn h)
    · exact exec_replacedPort_of_next e (exec_call_of_lt (s := { s with random := p }) nnn h)
  | ret =>
    rcases execRet_cases s with ⟨h, e⟩ | ⟨h, e⟩
    · exact exec_replacedPort_of_next e (exec_ret_of_empty h)
    · exact exec_replacedPort_of_next e (exec_ret_of_pos (s := { s with random := p }) (Nat.pos_of_ne_zero h))
  | dump x =>
    rcases execDump_cases x s with ⟨h, e⟩ | ⟨h, e⟩
    · exact exec_replacedPort_of_next e (exec_dump_of_gt h)
    · exact exec_replacedPort_of_next e (exec_dump_of_le h)
  | load x =>
    rcases execLoad_cases x s with ⟨h, e⟩ | ⟨h, e⟩
    · exact exec_replacedPort_of_next e (exec_load_of_gt h)
    · exact exec_replacedPort_of_next e (exec_load_of_le h)
  | bcd x =>
    rcases execBcd_cases x s with ⟨h, e⟩ | ⟨h, e⟩
    · exact exec_replacedPort_of_next e (exec_bcd_of_gt h)
    · exact exec_replacedPort_of_next e (exec_bcd_of_le h)
  | draw x y d =>
    rcases execDraw_cases x y d s with ⟨h, e⟩ | ⟨h, e⟩ | ⟨h, e⟩
    · exact exec_replacedPort_of_next e (exec_draw_of_memory_outside h)
    · exact exec_replacedPort_of_next e (exec_draw_of_display_outside h)
    · exact exec_replacedPort_of_next e (exec_draw_of_inside h)
  | skeqi x nn => exact exec_replacedPort_of_next (skip_eq s _) (skip_eq _ _)
  | sknei x nn => exact exec_replacedPort_of_next (skip_eq s _) (skip_eq _ _)
  | skeq x y => exact exec_replacedPort_of_next (skip_eq s _) (skip_eq _ _)
  | skne x y => exact exec_replacedPort_of_next (skip_eq s _) (skip_eq _ _)
  | _ => rfl

end Sys2Proof.Machine
end

section
/-!
SUPPORT. Exceptions (spec/60_exceptions.md): what a faulting step leaves and records, which instruction raises which
cause, and that a run has one end.
-/

namespace Sys2Proof.Machine

variable {s t u : State} {i : Instr} {f : FaultRecord}

/-! ### Faults are precise (R145, R146) -/

/-- An instruction that ends `Faulted` has raised, with its own encoding as the word. -/
theorem exec_faulted (hr : s.status = .running) (h : exec i s = .next t) (ht : t.status = .faulted f) :
    ∃ c, t = s.raise (some (encode i)) c := by
  rcases exec_cases i s with ⟨c, e⟩ | ⟨v, e, hstatus, _⟩ | ⟨_, e⟩
  · exact ⟨c, next_unique e h⟩
  · obtain rfl := next_unique e h
    rw [hstatus, hr] at ht
    cases ht
  · obtain rfl := next_unique e h
    cases ht

/-- A step that ends `Faulted` has raised: the fetch's cause without a word, or some cause with the fetched word, as the
decoder reads a word only as an instruction that it encodes. -/
theorem step_faulted (hr : s.status = .running) (h : step s = .next t) (ht : t.status = .faulted f) :
    (∃ c, fetch s = .error c ∧ t = s.raise none c) ∨ ∃ w c, fetch s = .ok w ∧ t = s.raise (some w) c := by
  rcases step_cases s hr with ⟨_, hf, e⟩ | ⟨w, _, _, hf, _, e⟩ | ⟨w, i, _, hf, hd, e⟩
  · exact .inl ⟨_, hf, next_unique e h⟩
  · exact .inr ⟨w, _, hf, next_unique e h⟩
  · obtain ⟨c, rfl⟩ := exec_faulted hr (e.symm.trans h) ht
    rw [encodeOfDecodeIsIdentity w i hd]
    exact .inr ⟨w, c, hf, rfl⟩

/-- Settles O13: `step_faulted`, and `raise` changes the latch alone and records `pc`. -/
theorem faultsArePrecise : Obligations.FaultsArePrecise := by
  intro s t f hr h ht
  rcases step_faulted hr h ht with ⟨c, hf, rfl⟩ | ⟨w, c, hf, rfl⟩
  · cases ht
    simp [hf, State.raise]
  · cases ht
    simp [hf, State.raise]

/-! ### The causes of each instruction (R143) -/

/-- R143's table: the causes that an instruction can raise, each with its condition. -/
inductive Raises (s : State) : Instr → FatalCause → Prop where
  | call (nnn : Addr12) (hsp : s.sp.val = 16) : Raises s (.call nnn) .stackOverflow
  | ret (hsp : s.sp.val = 0) : Raises s .ret .stackUnderflow
  | dump (x : Reg) (hout : 4096 ≤ s.I.toNat + x.val) : Raises s (.dump x) (.memoryBounds (max s.I.toNat 4096))
  | load (x : Reg) (hout : 4096 ≤ s.I.toNat + x.val) : Raises s (.load x) (.memoryBounds (max s.I.toNat 4096))
  | bcd (x : Reg) (hout : 4096 ≤ s.I.toNat + 2) : Raises s (.bcd x) (.memoryBounds (max s.I.toNat 4096))
  | drawMemory (x y : Reg) (d : Fin 16) (hout : 1 ≤ d.val ∧ 4096 < s.I.toNat + d.val) :
      Raises s (.draw x y d) (.memoryBounds (max s.I.toNat 4096))
  | drawDisplay (x y : Reg) (d : Fin 16)
      (hout : 1 ≤ d.val ∧ s.I.toNat + d.val ≤ 4096 ∧ (56 < (s.reg x).toNat ∨ 32 < (s.reg y).toNat + d.val)) :
      Raises s (.draw x y d) (.displayBounds (s.reg x) (s.reg y) d)

/-- The cause raised is the one recorded. -/
theorem cause_of_raised {w : Option Word} {c : FatalCause} (h : exec i s = .next t) (ht : t.status = .faulted f)
    (e : exec i s = .next (s.raise w c)) : f.cause = c := by
  obtain rfl := next_unique e h
  cases ht
  rfl

/-- An end that leaves the latch of a running core running is not `Faulted`. -/
theorem not_faulted_of_completed (hr : s.status = .running) (h : exec i s = .next t) (e : exec i s = .next u)
    (hu : u.status = s.status) : t.status ≠ .faulted f := by
  rw [next_unique e h, hu, hr]
  nofun

/-- The fault of an instruction stands in the table: of the ends of each meaning, the others leave the core running, or
halt it. -/
theorem exec_raises (hr : s.status = .running) (h : exec i s = .next t) (ht : t.status = .faulted f) :
    Raises s i f.cause := by
  cases i with
  | call nnn =>
    rcases execCall_cases nnn s with ⟨hsp, e⟩ | ⟨_, e⟩
    · exact cause_of_raised h ht e ▸ .call nnn hsp
    · exact absurd ht (not_faulted_of_completed hr h e rfl)
  | ret =>
    rcases execRet_cases s with ⟨hsp, e⟩ | ⟨_, e⟩
    · exact cause_of_raised h ht e ▸ .ret hsp
    · exact absurd ht (not_faulted_of_completed hr h e rfl)
  | dump x =>
    rcases execDump_cases x s with ⟨hout, e⟩ | ⟨_, e⟩
    · exact cause_of_raised h ht e ▸ .dump x hout
    · exact absurd ht (not_faulted_of_completed hr h e rfl)
  | load x =>
    rcases execLoad_cases x s with ⟨hout, e⟩ | ⟨_, e⟩
    · exact cause_of_raised h ht e ▸ .load x hout
    · exact absurd ht (not_faulted_of_completed hr h e rfl)
  | bcd x =>
    rcases execBcd_cases x s with ⟨hout, e⟩ | ⟨_, e⟩
    · exact cause_of_raised h ht e ▸ .bcd x hout
    · exact absurd ht (not_faulted_of_completed hr h e rfl)
  | draw x y d =>
    rcases execDraw_cases x y d s with ⟨hout, e⟩ | ⟨hout, e⟩ | ⟨_, e⟩
    · exact cause_of_raised h ht e ▸ .drawMemory x y d hout
    · exact cause_of_raised h ht e ▸ .drawDisplay x y d hout
    · exact absurd ht (not_faulted_of_completed hr h e rfl)
  | halt =>
    obtain rfl := next_unique rfl h
    cases ht
  | skeqi x nn => exact absurd ht (not_faulted_of_completed hr h (skip_eq s _) rfl)
  | sknei x nn => exact absurd ht (not_faulted_of_completed hr h (skip_eq s _) rfl)
  | skeq x y => exact absurd ht (not_faulted_of_completed hr h (skip_eq s _) rfl)
  | skne x y => exact absurd ht (not_faulted_of_completed hr h (skip_eq s _) rfl)
  | _ => exact absurd ht (not_faulted_of_completed hr h rfl rfl)

/-- Settles O14: `exec_raises`, row by row of the table. -/
theorem instructionsRaiseOnlyTheirFaults : Obligations.InstructionsRaiseOnlyTheirFaults := by
  intro i s t f hr h ht
  have hraises := exec_raises hr h ht
  generalize f.cause = c at hraises ⊢
  cases hraises with
  | call nnn hsp => exact ⟨rfl, hsp⟩
  | ret hsp => exact ⟨rfl, hsp⟩
  | dump x _ => simp [Instr.mnemonic]
  | load x _ => simp [Instr.mnemonic]
  | bcd x _ => simp [Instr.mnemonic]
  | drawMemory x y d _ => simp [Instr.mnemonic]
  | drawDisplay x y d _ => rfl

/-! ### A run has one end (R148) -/

/-- Two runs from one state that both end outside `Running` end in the same state: a step has one next state, and only a
running core takes one (R133). -/
theorem Reaches.end_unique {n m : Nat} (hn : Reaches n s t) (hm : Reaches m s u) (ht : t.status ≠ .running)
    (hu : u.status ≠ .running) : t = u := by
  induction n generalizing s m with
  | zero =>
    obtain rfl : s = t := hn
    cases m with
    | zero => exact hm
    | succ m =>
      obtain ⟨v, hstep, -⟩ := hm
      exact absurd (running_of_step hstep) ht
  | succ n ih =>
    obtain ⟨v, hstep, hn⟩ := hn
    cases m with
    | zero =>
      obtain rfl : s = u := hm
      exact absurd (running_of_step hstep) hu
    | succ m =>
      obtain ⟨v', hstep', hm⟩ := hm
      obtain rfl := next_unique hstep hstep'
      exact ih hn hm

/-- Settles O21: by `Reaches.end_unique` the halted end and a faulted one would be one state. -/
theorem haltedRunsNeverFault : Obligations.HaltedRunsNeverFault := by
  rintro s P ⟨n, t, hn, hhalted, -⟩ m u f hm hfaulted
  obtain rfl := hn.end_unique hm (by simp [hhalted]) (by simp [hfaulted])
  rw [hhalted] at hfaulted
  cases hfaulted

end Sys2Proof.Machine
end
